-- ==== Sys2Proof/Word.lean ====
section
/-! DEFINITION. The words of the drawing unit: one buffer byte, and one command word (spec/30_encoding.md R60,
spec/00_scope.md R10). -/

namespace Sys2Proof

/-- One buffer byte, `b[7:0]` (R10, R40). -/
abbrev Byte := BitVec 8

/-- One command word, `cmd[71:0]` (R60). There is one length, so there is one type. -/
abbrev CommandWord := BitVec 72

end Sys2Proof
end

