-- ==== Sys2Proof/Syntax.lean ====
section
/-! DEFINITION. The nine commands, one constructor per row of spec/opcode_table.json, and the pixel state selector
(spec/00_scope.md R12, spec/30_encoding.md R62 to R65). Operands are the integers that the fields stand for (R62, R69). -/

namespace Sys2Proof

/-- The document's PixelState: "an operation selector applied to a target bit" (R12, R63). -/
inductive PixelState where
  | off
  | on
  | invert
deriving DecidableEq, Repr

/-- A decoded command (R69). Coordinates and lengths are the signed integers `s16` of their fields (R62); their range is
WellFormed's business. -/
inductive Instr where
  | clear
  | setrot (r : BitVec 2)
  | setpixel (x y : Int) (st : PixelState)
  | getpixel (x y : Int)
  | hrun (x y len : Int) (st : PixelState)
  | vrun (x y len : Int) (st : PixelState)
  | line (x0 y0 x1 y1 : Int) (st : PixelState)
  | getwidth
  | getheight
deriving DecidableEq, Repr

end Sys2Proof
end

