-- ==== Sys2Proof/WellFormed.lean ====
section
/-! DEFINITION. Which commands are encodable: every coordinate and length fits the 16-bit field that carries it
(spec/00_scope.md R7; spec/30_encoding.md R70: an operand outside the range "is not encodable"). -/

namespace Sys2Proof

/-- An operand that a 16-bit two's-complement field can carry (R7). -/
def fitsS16 (v : Int) : Bool := decide (-32768 ≤ v ∧ v ≤ 32767)

/-- Every integer operand of the command fits its field. The rotation and the state cannot be out of range: their types
hold the legal values alone (R63, R64). -/
def wellFormed : Instr → Bool
  | .clear => true
  | .setrot _ => true
  | .setpixel x y _ => fitsS16 x && fitsS16 y
  | .getpixel x y => fitsS16 x && fitsS16 y
  | .hrun x y len _ => fitsS16 x && fitsS16 y && fitsS16 len
  | .vrun x y len _ => fitsS16 x && fitsS16 y && fitsS16 len
  | .line x0 y0 x1 y1 _ => fitsS16 x0 && fitsS16 y0 && fitsS16 x1 && fitsS16 y1
  | .getwidth => true
  | .getheight => true

end Sys2Proof
end

