-- ==== Sys2Proof/Decode.lean ====
section
/-! DEFINITION. The decoder, total on all 2^72 words and rejecting by name (spec/30_encoding.md R61 to R69), the encoder
written from the same field table, and the opcode table's match and mask (spec/opcode_table.json, R66). -/

namespace Sys2Proof

/-- The seven fields of format CW (R61). -/
structure CommandFields where
  op : BitVec 4
  st : BitVec 2
  rsv : BitVec 2
  a : BitVec 16
  b : BitVec 16
  c : BitVec 16
  d : BitVec 16
deriving DecidableEq, Repr

/-- Why a word is illegal: the four conditions of R67. The hardware ranks none of them and records none (R155): the name
is for the reader, and log entry 10 says so. -/
inductive IllegalReason where
  /-- `OP` is 0x0 or 0xA to 0xF. -/
  | reservedOperation
  /-- `RSV` is not 00. -/
  | reservedBits
  /-- A field that this `OP` does not use is not zero. -/
  | unusedField
  /-- `ST = 11` on SETPIXEL, HRUN, VRUN or LINE. -/
  | reservedState
deriving DecidableEq, Repr

/-- What a word decodes to: every word is a legal command or an illegal word (R68). -/
inductive Decoded where
  | command (i : Instr)
  | illegal (why : IllegalReason)
deriving DecidableEq, Repr

/-- The fields of a word (R61). -/
def commandFields (w : CommandWord) : CommandFields where
  op := w.extractLsb' 68 4
  st := w.extractLsb' 66 2
  rsv := w.extractLsb' 64 2
  a := w.extractLsb' 48 16
  b := w.extractLsb' 32 16
  c := w.extractLsb' 16 16
  d := w.extractLsb' 0 16

/-- The word made of seven fields, `{OP, ST, RSV, A, B, C, D}` (R61). -/
def assembleFields (f : CommandFields) : CommandWord :=
  f.op ++ f.st ++ f.rsv ++ f.a ++ f.b ++ f.c ++ f.d

/-- `s16(f)`: a 16-bit field as a two's-complement integer, `f` below 32768 and `f - 65536` from there on (R11, R62). -/
def s16 (f : BitVec 16) : Int :=
  if f.toNat < 32768 then (f.toNat : Int) else (f.toNat : Int) - 65536

/-- The field that carries an operand: the two's complement of the integer in 16 bits (R7). -/
def field16 (v : Int) : BitVec 16 := BitVec.ofInt 16 v

/-- The state selector's values (R63); 11 is reserved. -/
def decodeState (st : BitVec 2) : Option PixelState :=
  match st.toNat with
  | 0 => some .off
  | 1 => some .on
  | 2 => some .invert
  | _ => none

/-- The state selector's encoding (R63). -/
def encodeState : PixelState → BitVec 2
  | .off => 0b00
  | .on => 0b01
  | .invert => 0b10

/-- A drawing command's ST must be one of the three states (R67). -/
def withState (st : BitVec 2) (make : PixelState → Instr) : Decoded :=
  match decodeState st with
  | some s => .command (make s)
  | none => .illegal .reservedState

/-- The must-be-zero fields of an operation (R65, R66). -/
def ifUnusedZero (zero : Bool) (d : Decoded) : Decoded :=
  if zero then d else .illegal .unusedField

/-- R69's case distinction on `OP`, for a word whose `RSV` is zero. -/
def decodeOperation (f : CommandFields) : Decoded :=
  match f.op.toNat with
  | 0x1 => ifUnusedZero (f.st == 0 && f.a == 0 && f.b == 0 && f.c == 0 && f.d == 0) (.command .clear)
  | 0x2 => ifUnusedZero (f.st == 0 && f.a == 0 && f.b == 0 && f.c == 0 && f.d.extractLsb' 2 14 == 0)
      (.command (.setrot (f.d.extractLsb' 0 2)))
  | 0x3 => ifUnusedZero (f.c == 0 && f.d == 0) (withState f.st (.setpixel (s16 f.a) (s16 f.b)))
  | 0x4 => ifUnusedZero (f.st == 0 && f.c == 0 && f.d == 0) (.command (.getpixel (s16 f.a) (s16 f.b)))
  | 0x5 => ifUnusedZero (f.d == 0) (withState f.st (.hrun (s16 f.a) (s16 f.b) (s16 f.c)))
  | 0x6 => ifUnusedZero (f.d == 0) (withState f.st (.vrun (s16 f.a) (s16 f.b) (s16 f.c)))
  | 0x7 => withState f.st (.line (s16 f.a) (s16 f.b) (s16 f.c) (s16 f.d))
  | 0x8 => ifUnusedZero (f.st == 0 && f.a == 0 && f.b == 0 && f.c == 0 && f.d == 0) (.command .getwidth)
  | 0x9 => ifUnusedZero (f.st == 0 && f.a == 0 && f.b == 0 && f.c == 0 && f.d == 0) (.command .getheight)
  | _ => .illegal .reservedOperation

/-- The decoder: R69's procedure. -/
def decode (w : CommandWord) : Decoded :=
  let f := commandFields w
  if f.rsv == 0 then decodeOperation f else .illegal .reservedBits

/-- The fields of a command's word, by R65's columns. -/
def instrFields : Instr → CommandFields
  | .clear => ⟨0x1, 0, 0, 0, 0, 0, 0⟩
  | .setrot r => ⟨0x2, 0, 0, 0, 0, 0, r.zeroExtend 16⟩
  | .setpixel x y st => ⟨0x3, encodeState st, 0, field16 x, field16 y, 0, 0⟩
  | .getpixel x y => ⟨0x4, 0, 0, field16 x, field16 y, 0, 0⟩
  | .hrun x y len st => ⟨0x5, encodeState st, 0, field16 x, field16 y, field16 len, 0⟩
  | .vrun x y len st => ⟨0x6, encodeState st, 0, field16 x, field16 y, field16 len, 0⟩
  | .line x0 y0 x1 y1 st => ⟨0x7, encodeState st, 0, field16 x0, field16 y0, field16 x1, field16 y1⟩
  | .getwidth => ⟨0x8, 0, 0, 0, 0, 0, 0⟩
  | .getheight => ⟨0x9, 0, 0, 0, 0, 0, 0⟩

/-- The encoder: the one word of a well-formed command (R60, R66). -/
def encode (i : Instr) : CommandWord := assembleFields (instrFields i)

/-- One row of spec/opcode_table.json: the mnemonic, the match, the mask, and whether the row carries the constraint
`ST != 0b11`. -/
structure OpcodeRow where
  mnemonic : String
  pattern : CommandWord
  mask : CommandWord
  drawing : Bool
deriving DecidableEq, Repr

/-- spec/opcode_table.json's nine rows, in its order. -/
def opcodeTable : List OpcodeRow := [
  ⟨"CLEAR", 0x100000000000000000, 0xFFFFFFFFFFFFFFFFFF, false⟩,
  ⟨"SETROT", 0x200000000000000000, 0xFFFFFFFFFFFFFFFFFC, false⟩,
  ⟨"SETPIXEL", 0x300000000000000000, 0xF300000000FFFFFFFF, true⟩,
  ⟨"GETPIXEL", 0x400000000000000000, 0xFF00000000FFFFFFFF, false⟩,
  ⟨"HRUN", 0x500000000000000000, 0xF3000000000000FFFF, true⟩,
  ⟨"VRUN", 0x600000000000000000, 0xF3000000000000FFFF, true⟩,
  ⟨"LINE", 0x700000000000000000, 0xF30000000000000000, true⟩,
  ⟨"GETWIDTH", 0x800000000000000000, 0xFFFFFFFFFFFFFFFFFF, false⟩,
  ⟨"GETHEIGHT", 0x900000000000000000, 0xFFFFFFFFFFFFFFFFFF, false⟩]

/-- A word is in a row of the table: match under mask, and `ST ≠ 11` for a drawing row (R66). -/
def OpcodeRow.admits (row : OpcodeRow) (w : CommandWord) : Bool :=
  (w &&& row.mask == row.pattern) && !(row.drawing && w.extractLsb' 66 2 == 0b11)

/-- The mnemonic of a command, as the table spells it (R65). -/
def mnemonicOf : Instr → String
  | .clear => "CLEAR"
  | .setrot _ => "SETROT"
  | .setpixel _ _ _ => "SETPIXEL"
  | .getpixel _ _ => "GETPIXEL"
  | .hrun _ _ _ _ => "HRUN"
  | .vrun _ _ _ _ => "VRUN"
  | .line _ _ _ _ _ => "LINE"
  | .getwidth => "GETWIDTH"
  | .getheight => "GETHEIGHT"

/-- The command word of a table row's bits: one 72-bit word, whose bits above `nbits` are 0 (R60). -/
def tableWord (nbits w : Nat) : CommandWord := BitVec.ofNat 72 (w % 2 ^ nbits)

/-- What the decoder reads from a table word. -/
def decodeTableWord (nbits w : Nat) : Option Instr :=
  match decode (tableWord nbits w) with
  | .command i => some i
  | .illegal _ => none

end Sys2Proof
end

