-- ==== Sys2Proof/Config.lean ====
section
/-! DEFINITION. What is fixed when a drawing unit is built: the panel geometry (spec/00_scope.md R5, R9; spec/93 U6).
It is the only parameter. The spec leaves no value open beside it, so there is no free value here. -/

namespace Sys2Proof

/-- The physical panel geometry, `PANEL_W` by `PANEL_H` pixels (R5). -/
structure Geometry where
  panelW : Nat
  panelH : Nat
deriving DecidableEq, Repr

/-- The legal range of the two parameters, 1 to 32767 each (R5). -/
abbrev Geometry.Legal (g : Geometry) : Prop :=
  (1 ≤ g.panelW ∧ g.panelW ≤ 32767) ∧ (1 ≤ g.panelH ∧ g.panelH ≤ 32767)

/-- The default geometry, 128 by 64 (R5: "the default for every example"). DESIGN CHOICE as State.reset's geometry:
log entry 1. -/
def Geometry.standard : Geometry := { panelW := 128, panelH := 64 }

end Sys2Proof
end

