-- ==== Sys2Proof/Machine/State.lean ====
section
/-! DEFINITION. The architectural state (spec/10_state.md R20), the host side of the command port (spec/00_scope.md R17,
R18), the outcomes, and the reset state (R32, spec/70_reset_and_hazards.md R170). -/

namespace Sys2Proof.Machine

/-- The packed pixel buffer BUF as (index, byte) pairs in one canonical form: indices strictly rising, no byte equal to
what an unlisted index reads as. -/
abbrev Memory := List Host.Cell

/-- One thing the host does to the command port or the reset pin (R18): present a word, or assert and release `rst`. -/
inductive HostInput where
  | word (w : CommandWord)
  | rst
deriving DecidableEq, Repr

/-- What one step of the drawing unit is about. -/
inductive PortEvent where
  /-- `rst` is asserted: it wins over everything (R155, R171). -/
  | resetAsserted
  /-- The reset fill of BUF runs to its end (R170). -/
  | fillCompletes
  /-- `cmd_valid` and `cmd_ready` are both 1: the word is accepted (R18). -/
  | accepted (w : CommandWord)
  /-- No word is presented: the unit waits (R172). -/
  | idle
deriving DecidableEq, Repr

/-- The state. `geometry` is the construction parameter pair, which no step changes (R5, log entry 1); `inputs` is the
host's remaining command sequence (R17, R27, log entry 2); the other five are R20's table. -/
structure State where
  geometry : Geometry
  buf : Memory
  rot : BitVec 2
  rsp : BitVec 16
  ill : Bool
  busy : Bool
  inputs : List HostInput
deriving DecidableEq, Repr

/-- Faults: there are none. "The DU raises no synchronous exception. No command can fault, trap or abort" (R150), and a
buffer index out of bounds "cannot occur" (R151, R49). Nobody raises one, which is what the spec says. Log entry 8. -/
inductive Fault where
deriving DecidableEq, Repr

/-- Refusals. -/
inductive Refusal where
  /-- An instruction without a meaning. Nobody raises it: every arm of exec has its meaning. Safe. -/
  | notModelled (mnemonic : String)
deriving DecidableEq, Repr

/-- The machine right after reset (R32, R170): BUF all 0x00, ROT 0, RSP 0x0000, ILL 0, and BUSY 0 since the fill is done.
The geometry is the default of R5 (DESIGN CHOICE, log entry 1), and the host has presented nothing (DESIGN CHOICE, log
entry 2). -/
def State.reset : State where
  geometry := Geometry.standard
  buf := []
  rot := 0
  rsp := 0
  ill := false
  busy := false
  inputs := []

end Sys2Proof.Machine
end

