-- ==== Sys2Proof/Machine/Ops.lean ====
section
/-! DEFINITION. The named operations over the geometry, the buffer and the ports (spec/00_scope.md R6, R11, R18;
spec/20_memory.md R46, R48; spec/70_reset_and_hazards.md R170). The unit takes no exception and has no return from one
(spec/60_exceptions.md R150, R156, R157): what stands here in their place is reset, which is the one thing that can happen
to the machine beside a command. -/

namespace Sys2Proof

/-- `P = ceil(H / 8)`, the number of pages (R6). -/
def Geometry.pages (g : Geometry) : Nat := (g.panelH + 7) / 8

/-- `N = W * P`, the number of bytes of BUF (R6). -/
def Geometry.bytes (g : Geometry) : Nat := g.panelW * g.pages

/-- `AW = max(1, ceil(log2(N)))`, the width of `buf_addr` (R6). -/
def Geometry.indexWidth (g : Geometry) : Nat :=
  max 1 (if g.bytes ≤ 1 then 0 else (g.bytes - 1).log2 + 1)

end Sys2Proof

namespace Sys2Proof.Machine

/-- What an unlisted byte of BUF reads as: the reset contents, 0x00 (R32). -/
def Memory.blank : Byte := 0x00

/-- `MemRead(i)` (R11). -/
def Memory.read : Memory → Nat → Byte
  | [], _ => Memory.blank
  | (a, b) :: rest, i => if a = i then b else Memory.read rest i

/-- Put a byte at its place in the rising order of indices. -/
def Memory.place : Memory → Nat → Byte → Memory
  | [], i, v => [(i, v)]
  | (a, b) :: rest, i, v =>
    if a < i then (a, b) :: Memory.place rest i v
    else if a = i then (i, v) :: rest
    else (i, v) :: (a, b) :: rest

/-- `MemWrite(i, v)` (R11), keeping the canonical form: the blank byte is not listed. -/
def Memory.write (m : Memory) (i : Nat) (v : Byte) : Memory :=
  if v = Memory.blank then m.filter (fun c => c.1 ≠ i) else Memory.place m i v

/-- The canonical form: indices strictly rising, no blank byte listed. -/
abbrev Memory.wf (m : Memory) : Prop :=
  m.Pairwise (fun c d => c.1 < d.1) ∧ ∀ c ∈ m, c.2 ≠ Memory.blank

/-- The byte that a state selector makes of `b` under a mask: OR for ON, AND with the complement for OFF, XOR for INVERT
(R46, R95). -/
def maskedByte (st : PixelState) (b mask : Byte) : Byte :=
  match st with
  | .on => b ||| mask
  | .off => b &&& ~~~mask
  | .invert => b ^^^ mask

/-- `Apply(idx, mask, st)`, one indivisible read-modify-write of one byte (R95, R50). -/
def applyMask (m : Memory) (idx : Nat) (mask : Byte) (st : PixelState) : Memory :=
  m.write idx (maskedByte st (m.read idx) mask)

/-- The whole-byte access of a vertical run's interior: a store of 0xFF or 0x00, or XOR with 0xFF (R46, R112 (b)). -/
def fillByte (m : Memory) (idx : Nat) (st : PixelState) : Memory :=
  match st with
  | .on => m.write idx 0xFF
  | .off => m.write idx 0x00
  | .invert => m.write idx (m.read idx ^^^ 0xFF)

/-- Stores of 0x00 to `count` bytes in ascending order of index (CLEAR, R80, and the reset fill, R46). -/
def clearBytes : (count idx : Nat) → Memory → Memory
  | 0, _, m => m
  | count + 1, idx, m => clearBytes count (idx + 1) (m.write idx 0x00)

/-- `cmd_ready` equals `not BUSY` (R18, R24). -/
def cmdReady (s : State) : Bool := !s.busy

/-- `cmd_word`: the word that the host presents now, if it presents one (R18). -/
def cmdWord (s : State) : Option CommandWord :=
  match s.inputs with
  | .word w :: _ => some w
  | _ => none

/-- `cmd_valid`: the host presents a word (R18). -/
def cmdValid (s : State) : Bool := (cmdWord s).isSome

/-- `rsp_data`: the RSP register, visible at all times (R18, R23). -/
def rspData (s : State) : BitVec 16 := s.rsp

/-- `buf_data` for `buf_addr = addr`: `BUF[addr]`, and 0x00 from N on (R48). While BUSY = 1 the value is not specified and
the model offers none (R176, spec/93 U2, log entry 5). -/
def bufData (s : State) (addr : Nat) : Option Byte :=
  if s.busy then none
  else if addr < s.geometry.bytes then some (s.buf.read addr) else some 0x00

/-- `rst` is asserted and released (R170, R171): ROT, RSP and ILL take their reset values and BUSY is 1 while BUF is being
filled. The bytes of BUF are "any mixture of old bytes and zeros" until the fill is done (R176), and nothing can read them
(log entry 4). -/
def enterReset (s : State) : State :=
  { s with rot := 0, rsp := 0, ill := false, busy := true }

/-- The reset fill is done: every byte of BUF is 0x00 and BUSY falls (R170). -/
def completeFill (s : State) : State :=
  { s with buf := [], busy := false }

/-- What happens next, and the state with the host input that it consumes taken away. `rst` wins over everything (R171);
a word presented while BUSY = 1 is not accepted and stays where it is (R175); a word presented while BUSY = 0 is accepted
(R18, R52); with nothing to do the unit waits (R172). -/
def nextEvent (s : State) : PortEvent × State :=
  match s.inputs with
  | .rst :: rest => (.resetAsserted, { s with inputs := rest })
  | .word w :: rest => if s.busy then (.fillCompletes, s) else (.accepted w, { s with inputs := rest })
  | [] => (if s.busy then .fillCompletes else .idle, s)

/-- The state in which the host presents `w` next and the unit is ready for it (log entry 15). -/
def presentWord (s : State) (w : CommandWord) : State :=
  { s with busy := false, inputs := .word w :: s.inputs }

end Sys2Proof.Machine
end

