-- ==== Sys2Proof/Machine/Operands.lean ====
section
/-! DEFINITION. The path of a coordinate from logical to buffer bit: range check, rotation, bit address (spec/41_pixel.md
R90 to R94, spec/20_memory.md R41, spec/10_state.md R25). -/

namespace Sys2Proof.Machine

/-- LW: the logical width, W for ROT[0] = 0 and H for ROT[0] = 1 (R25). -/
def logicalWidth (g : Geometry) (rot : BitVec 2) : Nat :=
  if rot.getLsbD 0 then g.panelH else g.panelW

/-- LH: the logical height, H for ROT[0] = 0 and W for ROT[0] = 1 (R25). -/
def logicalHeight (g : Geometry) (rot : BitVec 2) : Nat :=
  if rot.getLsbD 0 then g.panelW else g.panelH

/-- `InRange(x, y)`, the range check on logical coordinates (R91). -/
abbrev InRange (g : Geometry) (rot : BitVec 2) (x y : Int) : Prop :=
  0 ≤ x ∧ x < (logicalWidth g rot : Int) ∧ 0 ≤ y ∧ y < (logicalHeight g rot : Int)

/-- A physical coordinate pair inside the panel, `[0, W) × [0, H)`. -/
abbrev InPanel (g : Geometry) (p : Int × Int) : Prop :=
  0 ≤ p.1 ∧ p.1 < (g.panelW : Int) ∧ 0 ≤ p.2 ∧ p.2 < (g.panelH : Int)

/-- `Xform(ROT, x, y)`, the rotation from logical to physical coordinates, defined for all integers (R92). -/
def xform (g : Geometry) (rot : BitVec 2) (x y : Int) : Int × Int :=
  match rot.toNat with
  | 0 => (x, y)
  | 1 => ((g.panelW : Int) - 1 - y, x)
  | 2 => ((g.panelW : Int) - 1 - x, (g.panelH : Int) - 1 - y)
  | _ => (y, (g.panelH : Int) - 1 - x)

/-- `BitAddr(px, py) = (idx, bit)`, the page layout: `idx = px + (py div 8) * W`, `bit = py mod 8` (R94, R41). -/
def bitAddr (g : Geometry) (p : Int × Int) : Nat × Nat :=
  ((p.1 + p.2 / 8 * (g.panelW : Int)).toNat, (p.2 % 8).toNat)

/-- `1 << bit`, the mask of one pixel (R94). -/
def bitMask (bit : Nat) : Byte := 1#8 <<< bit

/-- The buffer bit of a logical coordinate: rotate, then address (R90). -/
def logicalBit (g : Geometry) (rot : BitVec 2) (x y : Int) : Nat × Nat :=
  bitAddr g (xform g rot x y)

end Sys2Proof.Machine
end

