-- ==== Sys2Proof/Machine/Configuration.lean ====
section
/-! DEFINITION. CLEAR, SETROT, GETWIDTH, GETHEIGHT (spec/40_config.md R80 to R83). -/

namespace Sys2Proof.Machine

/-- CLEAR: zero-fill the buffer, in ascending index order (R80). -/
def execClear (s : State) : Host.Outcome State Fault Refusal :=
  .next { s with buf := clearBytes s.geometry.bytes 0 s.buf }

/-- SETROT r: set the rotation; BUF is not touched (R81). -/
def execSetrot (r : BitVec 2) (s : State) : Host.Outcome State Fault Refusal :=
  .next { s with rot := r }

/-- GETWIDTH: RSP becomes `zext16(LW)` (R82). -/
def execGetwidth (s : State) : Host.Outcome State Fault Refusal :=
  .next { s with rsp := BitVec.ofNat 16 (logicalWidth s.geometry s.rot) }

/-- GETHEIGHT: RSP becomes `zext16(LH)` (R83). -/
def execGetheight (s : State) : Host.Outcome State Fault Refusal :=
  .next { s with rsp := BitVec.ofNat 16 (logicalHeight s.geometry s.rot) }

end Sys2Proof.Machine
end

