-- ==== Sys2Proof/Machine/Pixel.lean ====
section
/-! DEFINITION. SETPIXEL and GETPIXEL (spec/41_pixel.md R97 to R99), over the operations of Ops and Operands. -/

namespace Sys2Proof.Machine

/-- `SetPixelLogical(x, y, st)`: dropped when out of range, else one masked access (R97). -/
def setPixelLogical (g : Geometry) (rot : BitVec 2) (st : PixelState) (m : Memory) (x y : Int) : Memory :=
  if InRange g rot x y then
    applyMask m (logicalBit g rot x y).1 (bitMask (logicalBit g rot x y).2) st
  else m

/-- The stored bit of a logical coordinate, and 0, the value of OFF, out of range (R99). -/
def readPixelLogical (g : Geometry) (rot : BitVec 2) (m : Memory) (x y : Int) : Bool :=
  if InRange g rot x y then
    (m.read (logicalBit g rot x y).1).getLsbD (logicalBit g rot x y).2
  else false

/-- SETPIXEL x, y, st (R98). -/
def execSetpixel (x y : Int) (st : PixelState) (s : State) : Host.Outcome State Fault Refusal :=
  .next { s with buf := setPixelLogical s.geometry s.rot st s.buf x y }

/-- GETPIXEL x, y: RSP becomes the bit, zero-extended to 16 bits (R99). -/
def execGetpixel (x y : Int) (s : State) : Host.Outcome State Fault Refusal :=
  .next { s with rsp := (BitVec.ofBool (readPixelLogical s.geometry s.rot s.buf x y)).zeroExtend 16 }

end Sys2Proof.Machine
end

