-- ==== Sys2Proof/Machine/Runs.lean ====
section
/-! DEFINITION. HRUN and VRUN (spec/42_runs.md R110 to R117): the two physical run primitives, their routing by rotation,
and the commands. -/

namespace Sys2Proof.Machine

/-- One masked access to each of `count` consecutive bytes, ascending (R110's loop). -/
def applyColumns (st : PixelState) (mask : Byte) : (count idx : Nat) → Memory → Memory
  | 0, _, m => m
  | count + 1, idx, m => applyColumns st mask count (idx + 1) (applyMask m idx mask st)

/-- The clip of a run's axis, `lo = max(start, 0)` and `hi = min(start + len, size)`: the cells `lo` to `hi − 1` are left
(R110, R111). -/
def clipRun (size start len : Int) : Int × Int := (max start 0, min (start + len) size)

/-- `PHRUN(px, py, len, st)`: the cells `(px + i, py)`, `0 ≤ i < len`, clipped to the panel (R110). -/
def phrun (g : Geometry) (st : PixelState) (m : Memory) (px py len : Int) : Memory :=
  if py < 0 ∨ (g.panelH : Int) ≤ py then m
  else
    let (lo, hi) := clipRun g.panelW px len
    if hi - lo ≤ 0 then m
    else applyColumns st (bitMask (py % 8).toNat) (hi - lo).toNat (lo + py / 8 * (g.panelW : Int)).toNat m

/-- Phase (b) of a vertical run: `pages` whole bytes, one page apart (R112). -/
def fillPages (w : Nat) (st : PixelState) : (pages idx : Nat) → Memory → Memory
  | 0, _, m => m
  | pages + 1, idx, m => fillPages w st pages (idx + w) (fillByte m idx st)

/-- Phase (a)'s mask, bits `first .. 7` (R112, R113). -/
def topMask (first : Nat) : Byte := 0xFF#8 <<< first

/-- The short-run correction, `0xFF >> k` (R112, R113). -/
def shortMask (k : Nat) : Byte := 0xFF#8 >>> k

/-- Phase (c)'s mask, bits `0 .. h − 1` (R112, R113). -/
def lowMask (h : Nat) : Byte := (1#8 <<< h) - 1#8

/-- Phases (b) and (c), from a page boundary with `h` rows left: `h div 8` whole bytes (the loop `while h ≥ 8`), then the
partial bottom byte (R112). -/
def pvrunBelow (w : Nat) (st : PixelState) (m : Memory) (h idx : Nat) : Memory :=
  let m' := fillPages w st (h / 8) idx m
  if 0 < h % 8 then applyMask m' (idx + h / 8 * w) (lowMask (h % 8)) st else m'

/-- The three phases, with `y`, `h`, `idx` as R111 leaves them (R112). -/
def pvrunPhases (w : Nat) (st : PixelState) (m : Memory) (y h idx : Nat) : Memory :=
  let first := y % 8
  let avail := 8 - first
  if first = 0 then pvrunBelow w st m h idx
  else if h < avail then applyMask m idx (topMask first &&& shortMask (avail - h)) st
  else pvrunBelow w st (applyMask m idx (topMask first) st) (h - avail) (idx + w)

/-- `PVRUN(px, py, len, st)`: the cells `(px, py + i)`, `0 ≤ i < len`, clipped to the panel (R111, R112). -/
def pvrun (g : Geometry) (st : PixelState) (m : Memory) (px py len : Int) : Memory :=
  if px < 0 ∨ (g.panelW : Int) ≤ px then m
  else
    let (lo, hi) := clipRun g.panelH py len
    if hi - lo ≤ 0 then m
    else pvrunPhases g.panelW st m lo.toNat (hi - lo).toNat (px + lo / 8 * (g.panelW : Int)).toNat

/-- A call of one of the two physical run primitives, the state selector apart (R110, R111). -/
inductive PhysicalRun where
  | row (px py len : Int)
  | column (px py len : Int)
deriving DecidableEq, Repr

/-- The primitive that serves the call (R114, R115). -/
def performRun (g : Geometry) (st : PixelState) (m : Memory) : PhysicalRun → Memory
  | .row px py len => phrun g st m px py len
  | .column px py len => pvrun g st m px py len

/-- The anchor of a run whose physical cells run backwards: the image of its last cell, `size − 1 − start − (len − 1)`
(R114, R115). -/
def movedAnchor (size start len : Int) : Int := size - 1 - start - (len - 1)

/-- The routing table of R114 for `HRunLogical` (spec/90_conflicts.md C1). -/
def hRunRoute (g : Geometry) (rot : BitVec 2) (x y len : Int) : PhysicalRun :=
  match rot.toNat with
  | 0 => .row x y len
  | 1 => .column ((g.panelW : Int) - 1 - y) x len
  | 2 => .row (movedAnchor g.panelW x len) ((g.panelH : Int) - 1 - y) len
  | _ => .column y (movedAnchor g.panelH x len) len

/-- The routing table of R115 for `VRunLogical` (spec/90_conflicts.md C1). -/
def vRunRoute (g : Geometry) (rot : BitVec 2) (x y len : Int) : PhysicalRun :=
  match rot.toNat with
  | 0 => .column x y len
  | 1 => .row (movedAnchor g.panelW y len) x len
  | 2 => .column ((g.panelW : Int) - 1 - x) (movedAnchor g.panelH y len) len
  | _ => .row y ((g.panelH : Int) - 1 - x) len

/-- `HRunLogical(x, y, len, st)` (R114). -/
def hRunLogical (g : Geometry) (rot : BitVec 2) (st : PixelState) (m : Memory) (x y len : Int) : Memory :=
  performRun g st m (hRunRoute g rot x y len)

/-- `VRunLogical(x, y, len, st)` (R115). -/
def vRunLogical (g : Geometry) (rot : BitVec 2) (st : PixelState) (m : Memory) (x y len : Int) : Memory :=
  performRun g st m (vRunRoute g rot x y len)

/-- HRUN x, y, len, st (R116). -/
def execHrun (x y len : Int) (st : PixelState) (s : State) : Host.Outcome State Fault Refusal :=
  .next { s with buf := hRunLogical s.geometry s.rot st s.buf x y len }

/-- VRUN x, y, len, st (R117). -/
def execVrun (x y len : Int) (st : PixelState) (s : State) : Host.Outcome State Fault Refusal :=
  .next { s with buf := vRunLogical s.geometry s.rot st s.buf x y len }

end Sys2Proof.Machine
end

