-- ==== Sys2Proof/Machine/Line.lean ====
section
/-! DEFINITION. LINE (spec/43_line.md R130 to R132). The line rasterizer turns two end points into a list of primitive
calls (spec/00_scope.md R2) and never touches the buffer; the pixel write unit performs the calls in order. -/

namespace Sys2Proof.Machine

/-- A call of the rasterizer to the pixel write unit (R2, R130, R131). -/
inductive PrimitiveCall where
  | pixel (x y : Int) (st : PixelState)
  | hrun (x y len : Int) (st : PixelState)
  | vrun (x y len : Int) (st : PixelState)
deriving DecidableEq, Repr

/-- The rasterizer's working registers (spec/10_state.md R28): written before read in every LINE, dead afterwards. -/
structure LineRegs where
  steep : Bool
  xa : Int
  xe : Int
  ya : Int
  dx : Int
  dy : Int
  err : Int
  ystep : Int
  st : PixelState
deriving DecidableEq, Repr

/-- `abs` over the integers (R11). -/
def absInt (v : Int) : Int := (v.natAbs : Int)

/-- `steep`: the secondary axis is x, by a strict comparison (R131). -/
def isSteep (x0 y0 x1 y1 : Int) : Bool := decide (absInt (x1 - x0) < absInt (y1 - y0))

/-- The working registers after the dominant coordinate has been made to increase (R131, lines `if x0 > x1` to
`ya = y0`); `ystep` is the sign of `y1 − y0` after both exchanges (spec/90_conflicts.md C2). -/
def orderedRegs (steep : Bool) (x0 y0 x1 y1 : Int) (st : PixelState) : LineRegs :=
  if x1 < x0 then
    { steep, xa := x1, xe := x0, ya := y1, dx := x0 - x1, dy := absInt (y0 - y1), err := (x0 - x1) / 2,
      ystep := if y1 < y0 then 1 else -1, st }
  else
    { steep, xa := x0, xe := x1, ya := y0, dx := x1 - x0, dy := absInt (y1 - y0), err := (x1 - x0) / 2,
      ystep := if y0 < y1 then 1 else -1, st }

/-- The set-up of the general case: exchange the axes of a steep line, then order the end points (R131). -/
def lineSetup (x0 y0 x1 y1 : Int) (st : PixelState) : LineRegs :=
  if isSteep x0 y0 x1 y1 then orderedRegs true y0 x0 y1 x1 st else orderedRegs false x0 y0 x1 y1 st

/-- The pixel call of one loop iteration; a steep line puts the coordinates back in (x, y) order (R131). -/
def linePixel (r : LineRegs) : PrimitiveCall :=
  if r.steep then .pixel r.ya r.xa r.st else .pixel r.xa r.ya r.st

/-- The registers after one loop iteration (R131). -/
def lineAdvance (r : LineRegs) : LineRegs :=
  if r.err - r.dy < 0 then
    { r with xa := r.xa + 1, ya := r.ya + r.ystep, err := r.err - r.dy + r.dx }
  else { r with xa := r.xa + 1, err := r.err - r.dy }

/-- The registers after `k` iterations. -/
def lineRegsAfter : Nat → LineRegs → LineRegs
  | 0, r => r
  | k + 1, r => lineRegsAfter k (lineAdvance r)

/-- The calls of `count` iterations, in order (R131). -/
def lineLoop : Nat → LineRegs → List PrimitiveCall
  | 0, _ => []
  | count + 1, r => linePixel r :: lineLoop count (lineAdvance r)

/-- The number of iterations of `for xa = x0 .. x1` (R131). -/
def lineCount (r : LineRegs) : Nat := (r.xe - r.xa + 1).toNat

/-- `LineGeneral(x0, y0, x1, y1, st)` (R131). -/
def lineGeneral (x0 y0 x1 y1 : Int) (st : PixelState) : List PrimitiveCall :=
  let r := lineSetup x0 y0 x1 y1 st
  lineLoop (lineCount r) r

/-- `Line(x0, y0, x1, y1, st)`: vertical first, then horizontal, then the general case (R130). -/
def lineCalls (x0 y0 x1 y1 : Int) (st : PixelState) : List PrimitiveCall :=
  if x0 = x1 then [.vrun x0 (min y0 y1) (absInt (y1 - y0) + 1) st]
  else if y0 = y1 then [.hrun (min x0 x1) y0 (absInt (x1 - x0) + 1) st]
  else lineGeneral x0 y0 x1 y1 st

/-- The pixel write unit serves one call (R97, R114, R115). -/
def performCall (g : Geometry) (rot : BitVec 2) (m : Memory) : PrimitiveCall → Memory
  | .pixel x y st => setPixelLogical g rot st m x y
  | .hrun x y len st => hRunLogical g rot st m x y len
  | .vrun x y len st => vRunLogical g rot st m x y len

/-- The call of a physical run primitive that one of the rasterizer's calls is routed to; a pixel call makes none (R114,
R115, R130). -/
def routedRun (g : Geometry) (rot : BitVec 2) : PrimitiveCall → Option PhysicalRun
  | .pixel _ _ _ => none
  | .hrun x y len _ => some (hRunRoute g rot x y len)
  | .vrun x y len _ => some (vRunRoute g rot x y len)

/-- The calls performed in order. -/
def performCalls (g : Geometry) (rot : BitVec 2) : List PrimitiveCall → Memory → Memory
  | [], m => m
  | c :: rest, m => performCalls g rot rest (performCall g rot m c)

/-- LINE x0, y0, x1, y1, st (R132). -/
def execLine (x0 y0 x1 y1 : Int) (st : PixelState) (s : State) : Host.Outcome State Fault Refusal :=
  .next { s with buf := performCalls s.geometry s.rot (lineCalls x0 y0 x1 y1 st) s.buf }

end Sys2Proof.Machine
end

