-- ==== Sys2Proof/Machine/Dispatch.lean ====
section
/-! DEFINITION. The dispatch: one arm per constructor of Instr (spec/opcode_table.json). -/

namespace Sys2Proof.Machine

def exec (i : Instr) (s : State) : Host.Outcome State Fault Refusal :=
  match i with
  | .clear => Sys2Proof.Machine.execClear s
  | .setrot r => Sys2Proof.Machine.execSetrot r s
  | .setpixel x y st => Sys2Proof.Machine.execSetpixel x y st s
  | .getpixel x y => Sys2Proof.Machine.execGetpixel x y s
  | .hrun x y len st => Sys2Proof.Machine.execHrun x y len st s
  | .vrun x y len st => Sys2Proof.Machine.execVrun x y len st s
  | .line x0 y0 x1 y1 st => Sys2Proof.Machine.execLine x0 y0 x1 y1 st s
  | .getwidth => Sys2Proof.Machine.execGetwidth s
  | .getheight => Sys2Proof.Machine.execGetheight s

end Sys2Proof.Machine
end

