-- ==== Sys2Proof/Machine/Flags.lean ====
section
/-! DEFINITION. The flags: the sticky ILL and the status port (spec/10_state.md R24, spec/60_exceptions.md R153). There are
no condition codes; no command computes a flag. -/

namespace Sys2Proof.Machine

/-- `flag_illegal()`: ILL becomes 1 and nothing else changes (R11, R153). -/
def flagIllegal (s : State) : State := { s with ill := true }

/-- The status port, `{ROT[1:0], ILL, BUSY}` (R18, R24). -/
def status (s : State) : BitVec 4 := s.rot ++ BitVec.ofBool s.ill ++ BitVec.ofBool s.busy

end Sys2Proof.Machine
end

