-- ==== Sys2Proof/Machine/Step.lean ====
section
/-! DEFINITION. One step: an accepted word runs to completion (spec/00_scope.md R15, R17, R18; spec/20_memory.md R52), an
illegal one sets ILL (spec/60_exceptions.md R153), `rst` resets (spec/70_reset_and_hazards.md R170). -/

namespace Sys2Proof.Machine

/-- The effect of one accepted word: the decoded command, or `flag_illegal()` (R69, R153). -/
def runWord (w : CommandWord) (s : State) : Host.Outcome State Fault Refusal :=
  match decode w with
  | .command i => exec i s
  | .illegal _ => .next (flagIllegal s)

/-- One step. -/
def step (s : State) : Host.Outcome State Fault Refusal :=
  match nextEvent s with
  | (.resetAsserted, s') => .next (enterReset s')
  | (.fillCompletes, s') => .next (completeFill s')
  | (.accepted w, s') => runWord w s'
  | (.idle, s') => .next s'

/-- The host presents the word of a table row's bits, and the unit is ready for it: the very next step runs it (log
entries 2 and 15). -/
def State.withFetchWord (s : State) (nbits w : Nat) : State := presentWord s (tableWord nbits w)

end Sys2Proof.Machine
end

