-- ==== Sys2Proof/Machine/Text.lean ====
section
/-! DEFINITION. The text form of commands (spec/30_encoding.md R70, R71) and the printed form of words (R72). Nothing of
the machine depends on it; it is the spec's notation for command sequences. Characters are lists, so that the kernel can
evaluate a line. -/

namespace Sys2Proof

/-- The document's second names, and the mnemonic each stands for (R71). -/
def secondNames : List (String × String) := [
  ("DRAWPIXEL", "SETPIXEL"),
  ("DRAWFASTHLINE", "HRUN"),
  ("DRAWFASTHRUN", "HRUN"),
  ("DRAWFASTVLINE", "VRUN"),
  ("DRAWFASTVRUN", "VRUN"),
  ("DRAWLINE", "LINE"),
  ("CLEARDISPLAY", "CLEAR")]

/-- An operand of the text form: a decimal integer or a state word (R70). -/
inductive TextOperand where
  | int (v : Int)
  | state (st : PixelState)
deriving DecidableEq, Repr

/-- The three state words (R70). -/
def stateWord : PixelState → String
  | .off => "OFF"
  | .on => "ON"
  | .invert => "INVERT"

/-- The mnemonic that a name stands for (R71). -/
def resolveName (name : String) : String :=
  match secondNames.find? (fun p => p.1 == name) with
  | some p => p.2
  | none => name

/-- The rotation operand, 0 to 3 (R70). -/
def rotationOperand (v : Int) : Option (BitVec 2) :=
  if v = 0 then some 0 else if v = 1 then some 1 else if v = 2 then some 2 else if v = 3 then some 3 else none

/-- A mnemonic with its operands, in the order of the document's signatures (R70). -/
def commandOf (mnemonic : String) (operands : List TextOperand) : Option Instr :=
  match operands with
  | [] =>
    if mnemonic == "CLEAR" then some .clear
    else if mnemonic == "GETWIDTH" then some .getwidth
    else if mnemonic == "GETHEIGHT" then some .getheight
    else none
  | [.int r] => if mnemonic == "SETROT" then (rotationOperand r).map .setrot else none
  | [.int x, .int y] => if mnemonic == "GETPIXEL" then some (.getpixel x y) else none
  | [.int x, .int y, .state st] => if mnemonic == "SETPIXEL" then some (.setpixel x y st) else none
  | [.int x, .int y, .int len, .state st] =>
    if mnemonic == "HRUN" then some (.hrun x y len st)
    else if mnemonic == "VRUN" then some (.vrun x y len st)
    else none
  | [.int x0, .int y0, .int x1, .int y1, .state st] =>
    if mnemonic == "LINE" then some (.line x0 y0 x1 y1 st) else none
  | _ => none

/-- The command that a name and its operands write, if they write one: an operand out of range is a syntax error (R70). -/
def parseCommand (name : String) (operands : List TextOperand) : Option Instr :=
  (commandOf (resolveName name) operands).filter wellFormed

/-- The word that a name and its operands assemble to; a second name assembles to the same word (R71). -/
def assembleCommand (name : String) (operands : List TextOperand) : Option CommandWord :=
  (parseCommand name operands).map encode

/-- The operands of a command in the text form's order (R70). -/
def textOperands : Instr → List TextOperand
  | .clear => []
  | .setrot r => [.int r.toNat]
  | .setpixel x y st => [.int x, .int y, .state st]
  | .getpixel x y => [.int x, .int y]
  | .hrun x y len st => [.int x, .int y, .int len, .state st]
  | .vrun x y len st => [.int x, .int y, .int len, .state st]
  | .line x0 y0 x1 y1 st => [.int x0, .int y0, .int x1, .int y1, .state st]
  | .getwidth => []
  | .getheight => []

/-- One character without surrounding spaces kept: spaces at the front are dropped. -/
def dropSpaces : List Char → List Char
  | ' ' :: rest => dropSpaces rest
  | cs => cs

/-- A piece of text without its surrounding spaces. -/
def trimSpaces (cs : List Char) : List Char := (dropSpaces (dropSpaces cs).reverse).reverse

/-- Split at a character. -/
def splitAtChar (sep : Char) : List Char → List (List Char)
  | [] => [[]]
  | c :: rest =>
    match splitAtChar sep rest with
    | [] => [[c]]
    | piece :: pieces => if c = sep then [] :: piece :: pieces else (c :: piece) :: pieces

/-- A decimal numeral. -/
def readDecimal (acc : Nat) : List Char → Option Nat
  | [] => some acc
  | c :: rest => if c.isDigit then readDecimal (acc * 10 + (c.toNat - '0'.toNat)) rest else none

/-- One operand: a state word, or a decimal integer with a leading `-` for negatives (R70). -/
def readOperand (cs : List Char) : Option TextOperand :=
  match cs with
  | ['O', 'F', 'F'] => some (.state .off)
  | ['O', 'N'] => some (.state .on)
  | ['I', 'N', 'V', 'E', 'R', 'T'] => some (.state .invert)
  | '-' :: d :: rest => (readDecimal 0 (d :: rest)).map (fun n => .int (-(n : Int)))
  | d :: rest => (readDecimal 0 (d :: rest)).map (fun n => .int (n : Int))
  | [] => none

/-- The operands of a line, comma-separated; an empty rest holds none. -/
def readOperands (cs : List Char) : Option (List TextOperand) :=
  if trimSpaces cs = [] then some []
  else (splitAtChar ',' cs).mapM (fun piece => readOperand (trimSpaces piece))

/-- A line without its comment: `;` starts one (R70). -/
def withoutComment (cs : List Char) : List Char := cs.takeWhile (fun c => c ≠ ';')

/-- One line of text to its word: the name, then the operands (R70). -/
def assembleLine (cs : List Char) : Option CommandWord :=
  let body := trimSpaces (withoutComment cs)
  let name := body.takeWhile (fun c => c ≠ ' ')
  match readOperands (body.dropWhile (fun c => c ≠ ' ')) with
  | some operands => assembleCommand (String.ofList name) operands
  | none => none

/-- One hexadecimal digit, in capitals as the spec prints it (R72). -/
def hexDigit (n : Nat) : Char := if n < 10 then Char.ofNat (48 + n) else Char.ofNat (55 + n)

/-- `count` hexadecimal digits of a value, most significant first. -/
def hexDigits : (count : Nat) → Nat → List Char
  | 0, _ => []
  | count + 1, v => hexDigits count (v / 16) ++ [hexDigit (v % 16)]

/-- A word as `TT_AAAA_BBBB_CCCC_DDDD` (R72). -/
def printWord (w : CommandWord) : List Char :=
  hexDigits 2 (w.toNat / 2 ^ 64) ++ '_' :: hexDigits 4 (w.toNat / 2 ^ 48) ++ '_' :: hexDigits 4 (w.toNat / 2 ^ 32)
    ++ '_' :: hexDigits 4 (w.toNat / 2 ^ 16) ++ '_' :: hexDigits 4 w.toNat

end Sys2Proof
end

