-- ==== Sys2Proof/Safety.lean ====
section
/-! DEFINITION. The terms that claims use: the bit of a buffer, what a state selector does to it, the invariant of every
reachable state, and a clean run (spec/20_memory.md R41, R43, R49, spec/41_pixel.md R96, spec/10_state.md R33,
spec/43_line.md R138, spec/60_exceptions.md R153). -/

namespace Sys2Proof.Machine

/-- `BUF[idx][bit]` for `p = (idx, bit)` (R41). -/
def bitAt (m : Memory) (p : Nat × Nat) : Bool := (m.read p.1).getLsbD p.2

/-- The new value of a bit under the mask: 1, 0 or the complement (R63, R96). -/
def newBit (st : PixelState) (b : Bool) : Bool :=
  match st with
  | .on => true
  | .off => false
  | .invert => !b

/-- `q(k)` of the closed form, `max(0, ceil((k * dy − (dx div 2)) / dx))` (R138); the ceiling of `a / b` is the negated
floor of `-a / b`. -/
def lineOffset (dx dy k : Int) : Int := max 0 (-((dx / 2 - k * dy) / dx))

/-- The `k`-th cell of a line's general case in closed form, in (x, y) order (R138). -/
def lineCell (r : LineRegs) (k : Nat) : Int × Int :=
  let xa := r.xa + k
  let ya := r.ya + r.ystep * lineOffset r.dx r.dy k
  if r.steep then (ya, xa) else (xa, ya)

/-- `SetPixelLogical` once for each cell of a list, in order: what R118 compares the run commands with. -/
def setPixels (g : Geometry) (rot : BitVec 2) (st : PixelState) : List (Int × Int) → Memory → Memory
  | [], m => m
  | c :: rest, m => setPixels g rot st rest (setPixelLogical g rot st m c.1 c.2)

/-- The cells `(x + i, y)`, `0 ≤ i < len`, of a horizontal run (R114). -/
def rowCells (x y len : Int) : List (Int × Int) := (List.range len.toNat).map fun (i : Nat) => (x + (i : Int), y)

/-- The cells `(x, y + i)`, `0 ≤ i < len`, of a vertical run (R115). -/
def columnCells (x y len : Int) : List (Int × Int) := (List.range len.toNat).map fun (i : Nat) => (x, y + (i : Int))

/-- The bounds of one run on an axis of `size` pixels, from its anchor and length: the sum, the anchor, and what the clip
leaves (R121). -/
abbrev AxisFits (size start len : Int) : Prop :=
  (-65536 ≤ start + len ∧ start + len ≤ 65535) ∧ (-65533 ≤ start ∧ start ≤ 98303) ∧
    (0 < (clipRun size start len).2 - (clipRun size start len).1 →
      (0 ≤ (clipRun size start len).1 ∧ (clipRun size start len).1 ≤ 32767) ∧
        (0 ≤ (clipRun size start len).2 ∧ (clipRun size start len).2 ≤ 32767) ∧
        (clipRun size start len).2 - (clipRun size start len).1 ≤ 32767)

/-- The arguments that a routed run hands to its physical primitive are in R121's bounds, and the coordinate across the
run is in the 18-bit datapath (R8). -/
def RunFits (g : Geometry) : PhysicalRun → Prop
  | .row px py len => AxisFits g.panelW px len ∧ -131072 ≤ py ∧ py ≤ 131071
  | .column px py len => AxisFits g.panelH py len ∧ -131072 ≤ px ∧ px ≤ 131071

/-- The whole effect of one accepted word on the state (R15, R153): the big step that R52 composes. -/
def wordEffect (s : State) (w : CommandWord) : State :=
  match decode w with
  | .command i =>
    match exec i s with
    | .next t => t
    | .fault _ => s
    | .refused _ => s
  | .illegal _ => { s with ill := true }

/-- Every listed byte lies in `[0, N)` (R49), and a bit that is set belongs to a pixel row of the panel (R33, R43). -/
abbrev BufInPanel (g : Geometry) (m : Memory) : Prop :=
  ∀ c ∈ m, c.1 < g.bytes ∧ ∀ k < 8, c.2.getLsbD k = true → 8 * (c.1 / g.panelW) + k < g.panelH

/-- The invariant: the geometry is legal, the buffer canonical and inside the panel, and BUSY means the reset fill, with
the registers at their reset values (R5, R20, R33, R170). -/
abbrev Inv (s : State) : Prop :=
  s.geometry.Legal ∧ s.buf.wf ∧ BufInPanel s.geometry s.buf ∧
    (s.busy = true → s.rot = 0 ∧ s.rsp = 0 ∧ s.ill = false)

/-- No illegal word has been accepted since reset (R153: a claim "normally takes ILL = 0 at the end"). -/
abbrev Clean (s : State) : Prop := s.ill = false

end Sys2Proof.Machine
end

