-- ==== Sys2Proof/Certificates/Slice0/Obligations.lean ====
section
/-! DEFINITION. The statements for the provers, in the order of spec/'s files: state and reset, ports, decoding, the
configuration commands, the pixel path, runs, lines, and the machine as a whole. `exec i s = .next { s with buf := m }`
says both that the command completes and its frame: every field but BUF is as it was. -/

open Sys2Proof Sys2Proof.Machine

/-! ## State, reset, ports -/

/-- R32: what reset leaves, on a panel of any geometry, and LW = W, LH = H. -/
def Obligations.ResetLeavesZeros : Prop :=
  ∀ g : Geometry, let s := { State.reset with geometry := g }
    (∀ i, s.buf.read i = 0x00) ∧ s.rot = 0 ∧ s.rsp = 0x0000 ∧ s.ill = false ∧ s.busy = false ∧
      logicalWidth s.geometry s.rot = g.panelW ∧ logicalHeight s.geometry s.rot = g.panelH

/-- R170, R171: a reset pulse, whatever is going on, gives BUSY = 1 with the registers at their reset values, and the end
of the fill gives the reset state, ready for the first command. That the pulse and the end of the fill are two steps is
the model's choice (log entry 4). -/
def Obligations.ResetPulseGivesResetState : Prop :=
  ∀ (s : State) (rest : List HostInput), s.inputs = .rst :: rest →
    ∃ t, step s = .next t ∧ t.busy = true ∧ cmdReady t = false ∧ t.rot = 0 ∧ t.rsp = 0 ∧ t.ill = false ∧
      t.geometry = s.geometry ∧ t.inputs = rest ∧
      ((∀ rest', rest ≠ .rst :: rest') →
        step t = .next { State.reset with geometry := s.geometry, inputs := rest } ∧
          cmdReady { State.reset with geometry := s.geometry, inputs := rest } = true)

/-- R24: the fields of the status port, `cmd_ready`, and the value in the reset state. The last clause, that the port reads
0001 during the reset fill (ROT and ILL already at their reset values), is the model's choice (log entry 4). -/
def Obligations.StatusPortShowsFlags : Prop :=
  (∀ s : State, (status s).getLsbD 0 = s.busy ∧ (status s).getLsbD 1 = s.ill ∧ (status s).extractLsb' 2 2 = s.rot ∧
      cmdReady s = !(status s).getLsbD 0 ∧ rspData s = s.rsp) ∧
    status State.reset = 0b0000 ∧ (∀ s : State, status (enterReset s) = 0b0001)

/-- R48: the read port between commands; R6: `buf_addr` is wide enough for every byte. That the address is any natural
number, also one that AW bits cannot carry, is the model's choice (log entry 14). -/
def Obligations.ReadPortShowsBuffer : Prop :=
  (∀ (s : State) (addr : Nat), s.busy = false → addr < s.geometry.bytes → bufData s addr = some (s.buf.read addr)) ∧
    (∀ (s : State) (addr : Nat), s.busy = false → s.geometry.bytes ≤ addr → bufData s addr = some 0x00) ∧
    (∀ g : Geometry, g.bytes ≤ 2 ^ g.indexWidth)

/-- R172, R173, R175: with no word presented an idle unit stays as it is, and a word presented while BUSY = 1 is not
accepted: it is still presented after the step. The model's choices in it: an idle unit takes a step that changes nothing
(log entry 12), and one step from BUSY = 1 gives `cmd_ready` = 1, since BUSY = 1 means the reset fill (log entry 3) and the
end of the fill is one step (log entry 4). -/
def Obligations.UnitWaitsAndWordIsHeld : Prop :=
  (∀ s : State, s.busy = false → s.inputs = [] → step s = .next s) ∧
    (∀ (s : State) (w : CommandWord) (rest : List HostInput), s.busy = true → s.inputs = .word w :: rest →
      cmdReady s = false ∧ ∃ t, step s = .next t ∧ cmdWord t = some w ∧ t.inputs = s.inputs ∧ cmdReady t = true)

/-! ## Encoding and decoding -/

/-- R69: decoding the word of a well-formed command gives it back. -/
def Obligations.DecodeAfterEncode : Prop :=
  ∀ i : Instr, wellFormed i = true → decode (encode i) = .command i

/-- R66: a word that decodes to a command is that command's one word, and the command is well-formed. -/
def Obligations.EncodeAfterDecode : Prop :=
  ∀ (w : CommandWord) (i : Instr), decode w = .command i → wellFormed i = true ∧ encode i = w

/-- R67: which words are illegal, and that an illegal word is consumed and only sets ILL. -/
def Obligations.IllegalWordsAreExactly : Prop :=
  (∀ w : CommandWord,
    let op := w.extractLsb' 68 4
    let st := w.extractLsb' 66 2
    let rsv := w.extractLsb' 64 2
    let a := w.extractLsb' 48 16
    let b := w.extractLsb' 32 16
    let c := w.extractLsb' 16 16
    let d := w.extractLsb' 0 16
    (∃ why, decode w = .illegal why) ↔
      (op = 0x0 ∨ 0xA ≤ op.toNat) ∨ rsv ≠ 0 ∨
      ((op = 0x1 ∨ op = 0x8 ∨ op = 0x9) ∧ (st ≠ 0 ∨ a ≠ 0 ∨ b ≠ 0 ∨ c ≠ 0 ∨ d ≠ 0)) ∨
      (op = 0x2 ∧ (st ≠ 0 ∨ a ≠ 0 ∨ b ≠ 0 ∨ c ≠ 0 ∨ d.extractLsb' 2 14 ≠ 0)) ∨
      (op = 0x3 ∧ (c ≠ 0 ∨ d ≠ 0)) ∨ (op = 0x4 ∧ (st ≠ 0 ∨ c ≠ 0 ∨ d ≠ 0)) ∨
      ((op = 0x5 ∨ op = 0x6) ∧ d ≠ 0) ∨
      ((op = 0x3 ∨ op = 0x5 ∨ op = 0x6 ∨ op = 0x7) ∧ st = 0b11)) ∧
    (∃ why, decode 0 = .illegal why) ∧ (∃ why, decode (BitVec.allOnes 72) = .illegal why) ∧
    (∀ (s : State) (w : CommandWord) (rest : List HostInput), s.busy = false → s.inputs = .word w :: rest →
      (∃ why, decode w = .illegal why) → step s = .next { s with ill := true, inputs := rest })

/-- R153: an illegal word sets ILL and nothing else; ILL stays 1 through every later command until reset clears it (R170).
That ILL is 0 already right after the pulse, while the reset fill runs, is the model's choice (log entry 4). -/
def Obligations.IllIsSticky : Prop :=
  (∀ (s : State) (w : CommandWord) (rest : List HostInput), s.busy = false → s.inputs = .word w :: rest →
      (∃ why, decode w = .illegal why) → step s = .next { s with ill := true, inputs := rest }) ∧
    (∀ (i : Instr) (s t : State), exec i s = .next t → t.ill = s.ill) ∧
    (∀ s t : State, s.ill = true → (∀ rest, s.inputs ≠ .rst :: rest) → step s = .next t → t.ill = true) ∧
    (∀ (s t : State) (rest : List HostInput), s.inputs = .rst :: rest → step s = .next t → t.ill = false)

/-- R66: match and mask of the opcode table, with the constraint on ST, decide legality and the mnemonic, and each
command is a single bit pattern. -/
def Obligations.OpcodeTableDecidesLegality : Prop :=
  (∀ w : CommandWord, (∃ i, decode w = .command i) ↔ ∃ row ∈ opcodeTable, row.admits w = true) ∧
    (∀ (w : CommandWord) (i : Instr) (row : OpcodeRow), decode w = .command i → row ∈ opcodeTable →
      row.admits w = true → row.mnemonic = mnemonicOf i) ∧
    (∀ (w w' : CommandWord) (i : Instr), decode w = .command i → decode w' = .command i → w = w')

/-- R72, R69: words written out from the spec's encoding, one or more a command, and what they decode to. -/
def Obligations.SampleWordsDecode : Prop :=
  decode 0x100000000000000000 = .command .clear ∧
    decode 0x200000000000000003 = .command (.setrot 3) ∧
    decode 0x34_0005_000A_0000_0000 = .command (.setpixel 5 10 .on) ∧
    decode 0x38_FFFF_8000_0000_0000 = .command (.setpixel (-1) (-32768) .invert) ∧
    decode 0x40_007F_003F_0000_0000 = .command (.getpixel 127 63) ∧
    decode 0x54_FFFD_0009_0006_0000 = .command (.hrun (-3) 9 6 .on) ∧
    decode 0x64_7FFF_FFFF_FFFF_0000 = .command (.vrun 32767 (-1) (-1) .on) ∧
    decode 0x74_0000_0000_0003_0003 = .command (.line 0 0 3 3 .on) ∧
    decode 0x70_FFFD_FFFE_0003_0002 = .command (.line (-3) (-2) 3 2 .off) ∧
    decode 0x800000000000000000 = .command .getwidth ∧
    decode 0x900000000000000000 = .command .getheight

/-- R18, R69: a ready unit that is presented a word which decodes to `i` runs `i`, the word being consumed. -/
def Obligations.StepRunsAcceptedCommand : Prop :=
  ∀ (s : State) (w : CommandWord) (rest : List HostInput) (i : Instr), s.busy = false → s.inputs = .word w :: rest →
    decode w = .command i → step s = exec i { s with inputs := rest }

/-- R71: a second name with any operands assembles to the same word as the mnemonic; R70: the mnemonic and the operands of
a well-formed command assemble to its word, and nothing assembles that is not well-formed. Names and operands are parsed
ones here; TextLinesAssemble speaks of lines of text. -/
def Obligations.TextAssemblesToWords : Prop :=
  (∀ names ∈ [("DRAWPIXEL", "SETPIXEL"), ("DRAWFASTHLINE", "HRUN"), ("DRAWFASTHRUN", "HRUN"),
      ("DRAWFASTVLINE", "VRUN"), ("DRAWFASTVRUN", "VRUN"), ("DRAWLINE", "LINE"), ("CLEARDISPLAY", "CLEAR")],
      ∀ operands, assembleCommand names.1 operands = assembleCommand names.2 operands) ∧
    (∀ i : Instr, wellFormed i = true → assembleCommand (mnemonicOf i) (textOperands i) = some (encode i)) ∧
    (∀ name operands w, assembleCommand name operands = some w → ∃ i, wellFormed i = true ∧ w = encode i)

/-! ## CLEAR, SETROT, GETWIDTH, GETHEIGHT -/

/-- R80: CLEAR stores 0x00 to every byte of BUF and changes nothing else, and every GETPIXEL after it answers 0. -/
def Obligations.ClearZeroFills : Prop :=
  encode .clear = 0x10_0000_0000_0000_0000 ∧
    (∀ s : State, ∃ m, exec .clear s = .next { s with buf := m } ∧
      (∀ i, i < s.geometry.bytes → m.read i = 0x00) ∧
      (∀ i, s.geometry.bytes ≤ i → m.read i = s.buf.read i) ∧
      (∀ (rot : BitVec 2) (x y : Int),
        exec (.getpixel x y) { s with buf := m, rot := rot } = .next { s with buf := m, rot := rot, rsp := 0x0000 }))

/-- R81: SETROT writes ROT alone, the logical size follows it, and `D[15:2] ≠ 0` is illegal. -/
def Obligations.SetrotWritesRotAlone : Prop :=
  (∀ (r : BitVec 2) (s : State), exec (.setrot r) s = .next { s with rot := r }) ∧
    (∀ r : BitVec 2, encode (.setrot r) = 0x20_0000_0000_0000_0000 + r.zeroExtend 72) ∧
    (∀ (g : Geometry) (r : BitVec 2), (logicalWidth g r = if r = 0 ∨ r = 2 then g.panelW else g.panelH) ∧
      (logicalHeight g r = if r = 0 ∨ r = 2 then g.panelH else g.panelW)) ∧
    (∀ w : CommandWord, w.extractLsb' 68 4 = 0x2 → w.extractLsb' 2 14 ≠ 0 → ∃ why, decode w = .illegal why) ∧
    ∃ t, exec (.setrot 1) State.reset = .next t ∧ logicalWidth t.geometry t.rot = 64 ∧
      logicalHeight t.geometry t.rot = 128 ∧ (status t).extractLsb' 2 2 = 0b01

/-- R82: GETWIDTH puts LW into RSP and changes nothing else. -/
def Obligations.GetwidthAnswersLogicalWidth : Prop :=
  encode .getwidth = 0x80_0000_0000_0000_0000 ∧
    (∀ s : State, exec .getwidth s =
      .next { s with rsp := BitVec.ofNat 16 (if s.rot.getLsbD 0 = false then s.geometry.panelW else s.geometry.panelH) }) ∧
    (∀ s t : State, s.geometry.Legal → exec .getwidth s = .next t →
      t.rsp.toNat = logicalWidth s.geometry s.rot ∧ 1 ≤ t.rsp.toNat ∧ t.rsp.getLsbD 15 = false) ∧
    (∃ t, exec .getwidth State.reset = .next t ∧ t.rsp = 0x0080) ∧
    (∃ t, exec .getwidth { State.reset with rot := 1 } = .next t ∧ t.rsp = 0x0040)

/-- R83: GETHEIGHT puts LH into RSP and changes nothing else. -/
def Obligations.GetheightAnswersLogicalHeight : Prop :=
  encode .getheight = 0x90_0000_0000_0000_0000 ∧
    (∀ s : State, exec .getheight s =
      .next { s with rsp := BitVec.ofNat 16 (if s.rot.getLsbD 0 = false then s.geometry.panelH else s.geometry.panelW) }) ∧
    (∀ s t : State, s.geometry.Legal → exec .getheight s = .next t →
      t.rsp.toNat = logicalHeight s.geometry s.rot ∧ 1 ≤ t.rsp.toNat ∧ t.rsp.getLsbD 15 = false) ∧
    (∃ t, exec .getheight State.reset = .next t ∧ t.rsp = 0x0040) ∧
    (∃ t, exec .getheight { State.reset with rot := 3 } = .next t ∧ t.rsp = 0x0080) ∧
    (∃ t, exec .getheight { State.reset with geometry := ⟨96, 16⟩ } = .next t ∧ t.rsp = 0x0010)

/-! ## The pixel path -/

/-- R92: the four rows of the rotation table, for all integers. -/
def Obligations.RotationTableRows : Prop :=
  ∀ (g : Geometry) (x y : Int),
    xform g 0 x y = (x, y) ∧ xform g 1 x y = ((g.panelW : Int) - 1 - y, x) ∧
      xform g 2 x y = ((g.panelW : Int) - 1 - x, (g.panelH : Int) - 1 - y) ∧
      xform g 3 x y = (y, (g.panelH : Int) - 1 - x)

/-- R93: the range check before rotation is the panel bound after it, and the rotation is a bijection from the logical
rectangle onto the panel. -/
def Obligations.RotationMapsRangeOntoPanel : Prop :=
  ∀ (g : Geometry) (rot : BitVec 2),
    (∀ x y : Int, InRange g rot x y ↔ InPanel g (xform g rot x y)) ∧
      (∀ x y x' y' : Int, xform g rot x y = xform g rot x' y' → x = x' ∧ y = y') ∧
      (∀ p : Int × Int, InPanel g p → ∃ x y, InRange g rot x y ∧ xform g rot x y = p)

/-- R41, R43, R94: the page layout and its inverse; the index is in `[0, N)` (R49). -/
def Obligations.PageLayoutAndInverse : Prop :=
  (∀ (g : Geometry) (px py : Int), InPanel g (px, py) →
    ((bitAddr g (px, py)).1 : Int) = px + py / 8 * (g.panelW : Int) ∧ ((bitAddr g (px, py)).2 : Int) = py % 8 ∧
      (bitAddr g (px, py)).1 < g.bytes ∧ (bitAddr g (px, py)).2 < 8) ∧
    (∀ (g : Geometry) (i k : Nat), i < g.bytes → k < 8 → 8 * (i / g.panelW) + k < g.panelH →
      InPanel g (((i % g.panelW : Nat) : Int), ((8 * (i / g.panelW) + k : Nat) : Int)) ∧
        bitAddr g (((i % g.panelW : Nat) : Int), ((8 * (i / g.panelW) + k : Nat) : Int)) = (i, k)) ∧
    (∀ (g : Geometry) (p p' : Int × Int), InPanel g p → InPanel g p' → bitAddr g p = bitAddr g p' → p = p')

/-- R95: `Apply` on the addressed byte, on the other bytes, and with mask 0xFF; R96's truth table, bit by bit. -/
def Obligations.ApplyChangesMaskedBits : Prop :=
  ∀ (m : Memory) (idx : Nat) (mask : Byte),
    ((applyMask m idx mask .on).read idx = m.read idx ||| mask ∧
      (applyMask m idx mask .off).read idx = m.read idx &&& ~~~mask ∧
      (applyMask m idx mask .invert).read idx = m.read idx ^^^ mask) ∧
    (∀ (st : PixelState) (i : Nat), i ≠ idx → (applyMask m idx mask st).read i = m.read i) ∧
    ((applyMask m idx 0xFF .on).read idx = 0xFF ∧ (applyMask m idx 0xFF .off).read idx = 0x00) ∧
    (∀ (st : PixelState) (k : Nat), mask.getLsbD k = false →
      bitAt (applyMask m idx mask st) (idx, k) = bitAt m (idx, k)) ∧
    (∀ k : Nat, mask.getLsbD k = true →
      bitAt (applyMask m idx mask .on) (idx, k) = true ∧ bitAt (applyMask m idx mask .off) (idx, k) = false ∧
        bitAt (applyMask m idx mask .invert) (idx, k) = !bitAt m (idx, k))

/-- R50: a masked write with ON or OFF is idempotent, with INVERT an involution. -/
def Obligations.MaskedWritesTwice : Prop :=
  ∀ (m : Memory) (idx : Nat) (mask : Byte) (i : Nat),
    (applyMask (applyMask m idx mask .on) idx mask .on).read i = (applyMask m idx mask .on).read i ∧
      (applyMask (applyMask m idx mask .off) idx mask .off).read i = (applyMask m idx mask .off).read i ∧
      (applyMask (applyMask m idx mask .invert) idx mask .invert).read i = m.read i

/-- R98: SETPIXEL changes the addressed bit alone, and nothing when out of range. -/
def Obligations.SetpixelChangesOneBit : Prop :=
  (∀ (x y : Int) (st : PixelState) (s : State), InRange s.geometry s.rot x y →
    ∃ m, exec (.setpixel x y st) s = .next { s with buf := m } ∧
      bitAt m (bitAddr s.geometry (xform s.geometry s.rot x y)) =
        newBit st (bitAt s.buf (bitAddr s.geometry (xform s.geometry s.rot x y))) ∧
      (∀ p, p ≠ bitAddr s.geometry (xform s.geometry s.rot x y) → bitAt m p = bitAt s.buf p) ∧
      (∀ i, i ≠ (bitAddr s.geometry (xform s.geometry s.rot x y)).1 → m.read i = s.buf.read i)) ∧
    (∀ (x y : Int) (st : PixelState) (s : State), ¬ InRange s.geometry s.rot x y →
      exec (.setpixel x y st) s = .next s) ∧
    (∀ x y : Int, (encode (.setpixel x y .off)).extractLsb' 64 8 = 0x30 ∧
      (encode (.setpixel x y .on)).extractLsb' 64 8 = 0x34 ∧ (encode (.setpixel x y .invert)).extractLsb' 64 8 = 0x38) ∧
    ∃ t, exec (.setpixel 5 10 .on) State.reset = .next t ∧ t.buf = [(133, 0x04)]

/-- R99: GETPIXEL puts the addressed bit into RSP, 0 when out of range, and changes nothing else. -/
def Obligations.GetpixelAnswersTheBit : Prop :=
  (∀ (x y : Int) (s : State), InRange s.geometry s.rot x y →
    exec (.getpixel x y) s = .next { s with rsp :=
      (if bitAt s.buf (bitAddr s.geometry (xform s.geometry s.rot x y)) then 0x0001 else 0x0000) }) ∧
    (∀ (x y : Int) (s : State), ¬ InRange s.geometry s.rot x y →
      exec (.getpixel x y) s = .next { s with rsp := 0x0000 }) ∧
    (∀ x y : Int, (encode (.getpixel x y)).extractLsb' 64 8 = 0x40 ∧ (encode (.getpixel x y)).extractLsb' 0 32 = 0) ∧
    (∃ t, exec (.getpixel 5 10) { State.reset with buf := [(133, 0x04)] } = .next t ∧ t.rsp = 0x0001) ∧
    (∃ t, exec (.getpixel 5 11) { State.reset with buf := [(133, 0x04)] } = .next t ∧ t.rsp = 0x0000) ∧
    (∃ t, exec (.getpixel 128 0) { State.reset with buf := [(133, 0x04)] } = .next t ∧ t.rsp = 0x0000)

/-- R100: reading back what was set, and that two inversions restore the buffer. -/
def Obligations.PixelReadsBack : Prop :=
  ∀ (x y : Int) (s : State), InRange s.geometry s.rot x y →
    (∃ t, exec (.setpixel x y .on) s = .next t ∧ exec (.getpixel x y) t = .next { t with rsp := 1 }) ∧
    (∃ t, exec (.setpixel x y .off) s = .next t ∧ exec (.getpixel x y) t = .next { t with rsp := 0 }) ∧
    (∃ t t', exec (.setpixel x y .invert) s = .next t ∧ exec (.setpixel x y .invert) t = .next t' ∧
      (∀ i, t'.buf.read i = s.buf.read i) ∧ (s.buf.wf → t' = s))

/-- R101: a half turn is the point reflection; it is its own inverse, and on a square panel the quarter turns are inverse
to each other. -/
def Obligations.HalfTurnIsPointReflection : Prop :=
  (∀ (x y : Int) (st : PixelState) (s : State), ∃ m,
    exec (.setpixel x y st) { s with rot := 2 } = .next { s with rot := 2, buf := m } ∧
      exec (.setpixel ((s.geometry.panelW : Int) - 1 - x) ((s.geometry.panelH : Int) - 1 - y) st) { s with rot := 0 } =
        .next { s with rot := 0, buf := m }) ∧
    (∀ (g : Geometry) (x y : Int), xform g 2 (xform g 2 x y).1 (xform g 2 x y).2 = (x, y)) ∧
    (∀ (g : Geometry) (x y : Int), g.panelW = g.panelH →
      xform g 1 (xform g 3 x y).1 (xform g 3 x y).2 = (x, y) ∧ xform g 3 (xform g 1 x y).1 (xform g 1 x y).2 = (x, y))

/-- R102: the corner pixels of the 128 by 64 panel under the four rotations. -/
def Obligations.CornerPixelsLand : Prop :=
  [logicalBit ⟨128, 64⟩ 0 0 0, logicalBit ⟨128, 64⟩ 1 0 0, logicalBit ⟨128, 64⟩ 2 0 0, logicalBit ⟨128, 64⟩ 3 0 0] =
      [(0, 0), (127, 0), (1023, 7), (896, 7)] ∧
    [xform ⟨128, 64⟩ 0 127 63, xform ⟨128, 64⟩ 1 63 127, xform ⟨128, 64⟩ 2 127 63, xform ⟨128, 64⟩ 3 63 127] =
      [(127, 63), (0, 63), (0, 0), (127, 0)]

/-! ## Runs -/

/-- R113: the masks of a vertical run's phases, as tables. -/
def Obligations.RunMaskTables : Prop :=
  [1, 2, 3, 4, 5, 6, 7].map topMask = [0xFE, 0xFC, 0xF8, 0xF0, 0xE0, 0xC0, 0x80] ∧
    [1, 2, 3, 4, 5, 6].map shortMask = [0x7F, 0x3F, 0x1F, 0x0F, 0x07, 0x03] ∧
    [1, 2, 3, 4, 5, 6, 7].map lowMask = [0x01, 0x03, 0x07, 0x0F, 0x1F, 0x3F, 0x7F]

/-- R110: PHRUN applies the state to bit `y mod 8` of the byte of each column left by the clip, and to nothing else. -/
def Obligations.PhysicalRowRunCoversColumns : Prop :=
  ∀ (g : Geometry) (st : PixelState) (m : Memory) (px py len : Int),
    (∀ c : Int, 0 ≤ py → py < g.panelH → max px 0 ≤ c → c < min (px + len) g.panelW →
      (phrun g st m px py len).read (c + py / 8 * g.panelW).toNat =
        maskedByte st (m.read (c + py / 8 * g.panelW).toNat) (1#8 <<< (py % 8).toNat)) ∧
    (∀ i : Nat, (∀ c : Int, 0 ≤ py → py < g.panelH → max px 0 ≤ c → c < min (px + len) g.panelW →
        i ≠ (c + py / 8 * g.panelW).toNat) →
      (phrun g st m px py len).read i = m.read i)

/-- R111, R112, R113: PVRUN's three phases act on exactly the rows left by the clip. -/
def Obligations.PhysicalColumnRunCoversRows : Prop :=
  ∀ (g : Geometry) (st : PixelState) (m : Memory) (px py len : Int),
    (∀ r : Int, 0 ≤ px → px < g.panelW → max py 0 ≤ r → r < min (py + len) g.panelH →
      bitAt (pvrun g st m px py len) (bitAddr g (px, r)) = newBit st (bitAt m (bitAddr g (px, r)))) ∧
    (∀ p : Nat × Nat, (∀ r : Int, 0 ≤ px → px < g.panelW → max py 0 ≤ r → r < min (py + len) g.panelH →
        p ≠ bitAddr g (px, r)) →
      bitAt (pvrun g st m px py len) p = bitAt m p)

/-- R118 for HRUN: the routed fast path has the effect of one SetPixelLogical per cell. -/
def Obligations.HrunEqualsPixels : Prop :=
  ∀ (x y len : Int) (st : PixelState) (s : State), ∃ m, exec (.hrun x y len st) s = .next { s with buf := m } ∧
    (∀ i, m.read i = (setPixels s.geometry s.rot st (rowCells x y len) s.buf).read i) ∧
    (s.buf.wf → m = setPixels s.geometry s.rot st (rowCells x y len) s.buf)

/-- R118 for VRUN: the routed three-phase fast path has the effect of one SetPixelLogical per cell. -/
def Obligations.VrunEqualsPixels : Prop :=
  ∀ (x y len : Int) (st : PixelState) (s : State), ∃ m, exec (.vrun x y len st) s = .next { s with buf := m } ∧
    (∀ i, m.read i = (setPixels s.geometry s.rot st (columnCells x y len) s.buf).read i) ∧
    (s.buf.wf → m = setPixels s.geometry s.rot st (columnCells x y len) s.buf)

/-- R116: HRUN changes exactly the bits of the in-range cells `(u, y)`, `x ≤ u < x + len`: its result and its frame. -/
def Obligations.HrunCoversItsRow : Prop :=
  (∀ (x y len : Int) (st : PixelState) (s : State), ∃ m, exec (.hrun x y len st) s = .next { s with buf := m } ∧
    (∀ u : Int, x ≤ u → u < x + len → InRange s.geometry s.rot u y →
      bitAt m (logicalBit s.geometry s.rot u y) = newBit st (bitAt s.buf (logicalBit s.geometry s.rot u y))) ∧
    (∀ p, (∀ u : Int, x ≤ u → u < x + len → InRange s.geometry s.rot u y → p ≠ logicalBit s.geometry s.rot u y) →
      bitAt m p = bitAt s.buf p) ∧
    (∀ i, (∀ u : Int, x ≤ u → u < x + len → InRange s.geometry s.rot u y → i ≠ (logicalBit s.geometry s.rot u y).1) →
      m.read i = s.buf.read i)) ∧
    ∃ t, exec (.hrun (-3) 9 6 .on) State.reset = .next t ∧ t.buf = [(128, 0x02), (129, 0x02), (130, 0x02)]

/-- R117: VRUN changes exactly the bits of the in-range cells `(x, v)`, `y ≤ v < y + len`: its result and its frame. -/
def Obligations.VrunCoversItsColumn : Prop :=
  (∀ (x y len : Int) (st : PixelState) (s : State), ∃ m, exec (.vrun x y len st) s = .next { s with buf := m } ∧
    (∀ v : Int, y ≤ v → v < y + len → InRange s.geometry s.rot x v →
      bitAt m (logicalBit s.geometry s.rot x v) = newBit st (bitAt s.buf (logicalBit s.geometry s.rot x v))) ∧
    (∀ p, (∀ v : Int, y ≤ v → v < y + len → InRange s.geometry s.rot x v → p ≠ logicalBit s.geometry s.rot x v) →
      bitAt m p = bitAt s.buf p) ∧
    (∀ i, (∀ v : Int, y ≤ v → v < y + len → InRange s.geometry s.rot x v → i ≠ (logicalBit s.geometry s.rot x v).1) →
      m.read i = s.buf.read i)) ∧
    ∃ t, exec (.vrun 3 5 22 .on) State.reset = .next t ∧ t.buf = [(3, 0xE0), (131, 0xFF), (259, 0xFF), (387, 0x07)]

/-- R151: a run of no length, or wholly outside the logical rectangle, does nothing at all. -/
def Obligations.RunsOutsideDoNothing : Prop :=
  (∀ (x y len : Int) (st : PixelState) (s : State),
    (len ≤ 0 ∨ y < 0 ∨ logicalHeight s.geometry s.rot ≤ y ∨ x + len ≤ 0 ∨ logicalWidth s.geometry s.rot ≤ x) →
    exec (.hrun x y len st) s = .next s) ∧
  (∀ (x y len : Int) (st : PixelState) (s : State),
    (len ≤ 0 ∨ x < 0 ∨ logicalWidth s.geometry s.rot ≤ x ∨ y + len ≤ 0 ∨ logicalHeight s.geometry s.rot ≤ y) →
    exec (.vrun x y len st) s = .next s)

/-- R119: the worked anchors under rotations 1 and 3 (spec/90_conflicts.md C1). -/
def Obligations.RotatedRunExamples : Prop :=
  (∃ t, exec (.hrun 2 5 4 .on) { State.reset with rot := 1 } = .next t ∧ t.buf = [(122, 0x3C)]) ∧
    (∃ t, exec (.vrun 2 5 4 .on) { State.reset with rot := 1 } = .next t ∧
      t.buf = [(119, 0x04), (120, 0x04), (121, 0x04), (122, 0x04)]) ∧
    (∃ t, exec (.hrun 2 5 4 .on) { State.reset with rot := 3 } = .next t ∧ t.buf = [(901, 0x3C)]) ∧
    (∃ t, exec (.vrun 2 5 4 .on) { State.reset with rot := 3 } = .next t ∧
      t.buf = [(901, 0x20), (902, 0x20), (903, 0x20), (904, 0x20)])

/-- R120: two inversions by the same run restore the buffer. -/
def Obligations.RunInvertTwiceRestores : Prop :=
  ∀ (x y len : Int) (s : State),
    (∃ t t', exec (.hrun x y len .invert) s = .next t ∧ exec (.hrun x y len .invert) t = .next t' ∧
      (∀ i, t'.buf.read i = s.buf.read i) ∧ (s.buf.wf → t' = s)) ∧
    (∃ t t', exec (.vrun x y len .invert) s = .next t ∧ exec (.vrun x y len .invert) t = .next t' ∧
      (∀ i, t'.buf.read i = s.buf.read i) ∧ (s.buf.wf → t' = s))

/-- R121: the arguments that HRUN, VRUN and LINE's axis-aligned runs hand to PHRUN and PVRUN, and what the clip makes of
them, stay in the rule's bounds: 16-bit operands, any legal geometry, every rotation. -/
def Obligations.RunArithmeticIsBounded : Prop :=
  ∀ s : State, s.geometry.Legal →
    (∀ (x y len : Int) (st : PixelState), wellFormed (.hrun x y len st) = true →
      exec (.hrun x y len st) s =
          .next { s with buf := performRun s.geometry st s.buf (hRunRoute s.geometry s.rot x y len) } ∧
        RunFits s.geometry (hRunRoute s.geometry s.rot x y len)) ∧
    (∀ (x y len : Int) (st : PixelState), wellFormed (.vrun x y len st) = true →
      exec (.vrun x y len st) s =
          .next { s with buf := performRun s.geometry st s.buf (vRunRoute s.geometry s.rot x y len) } ∧
        RunFits s.geometry (vRunRoute s.geometry s.rot x y len)) ∧
    (∀ (x0 y0 x1 y1 : Int) (st : PixelState), wellFormed (.line x0 y0 x1 y1 st) = true →
      exec (.line x0 y0 x1 y1 st) s =
          .next { s with buf := performCalls s.geometry s.rot (lineCalls x0 y0 x1 y1 st) s.buf } ∧
        ∀ c ∈ lineCalls x0 y0 x1 y1 st, ∀ r, routedRun s.geometry s.rot c = some r →
          RunFits s.geometry r ∧ ∀ m, performCall s.geometry s.rot m c = performRun s.geometry st m r)

/-! ## Lines -/

/-- R130: LINE's dispatch, vertical first, then horizontal, then the general case. -/
def Obligations.LineDispatches : Prop :=
  ∀ (x0 y0 x1 y1 : Int) (st : PixelState) (s : State),
    (x0 = x1 → exec (.line x0 y0 x1 y1 st) s = exec (.vrun x0 (min y0 y1) (absInt (y1 - y0) + 1) st) s) ∧
    (x0 ≠ x1 → y0 = y1 → exec (.line x0 y0 x1 y1 st) s = exec (.hrun (min x0 x1) y0 (absInt (x1 - x0) + 1) st) s) ∧
    (x0 ≠ x1 → y0 ≠ y1 → exec (.line x0 y0 x1 y1 st) s =
      .next { s with buf := performCalls s.geometry s.rot (lineGeneral x0 y0 x1 y1 st) s.buf })

/-- R132, R138: LINE changes exactly the bits of the in-range cells of the closed form, in every case of its operands:
its result and its frame. -/
def Obligations.LineDrawsItsCells : Prop :=
  (∀ (x0 y0 x1 y1 : Int) (st : PixelState) (s : State),
    let r := lineSetup x0 y0 x1 y1 st
    ∃ m, exec (.line x0 y0 x1 y1 st) s = .next { s with buf := m } ∧
      (∀ k : Nat, (k : Int) ≤ r.dx → InRange s.geometry s.rot (lineCell r k).1 (lineCell r k).2 →
        bitAt m (logicalBit s.geometry s.rot (lineCell r k).1 (lineCell r k).2) =
          newBit st (bitAt s.buf (logicalBit s.geometry s.rot (lineCell r k).1 (lineCell r k).2))) ∧
      (∀ p, (∀ k : Nat, (k : Int) ≤ r.dx → InRange s.geometry s.rot (lineCell r k).1 (lineCell r k).2 →
          p ≠ logicalBit s.geometry s.rot (lineCell r k).1 (lineCell r k).2) →
        bitAt m p = bitAt s.buf p) ∧
      (∀ i, (∀ k : Nat, (k : Int) ≤ r.dx → InRange s.geometry s.rot (lineCell r k).1 (lineCell r k).2 →
          i ≠ (logicalBit s.geometry s.rot (lineCell r k).1 (lineCell r k).2).1) →
        m.read i = s.buf.read i)) ∧
    ∃ t, exec (.line 0 0 3 3 .on) State.reset = .next t ∧ t.buf = [(0, 0x01), (1, 0x02), (2, 0x04), (3, 0x08)]

/-- R134: the two orders of the end points make the same sequence of calls. -/
def Obligations.LineIsSymmetric : Prop :=
  ∀ (x0 y0 x1 y1 : Int) (st : PixelState), lineCalls x0 y0 x1 y1 st = lineCalls x1 y1 x0 y0 st

/-- R135: the error term at the top of every iteration, and that both end points are generated, first and last. -/
def Obligations.LineErrorTermStaysInRange : Prop :=
  ∀ (x0 y0 x1 y1 : Int) (st : PixelState), x0 ≠ x1 → y0 ≠ y1 →
    let r := lineSetup x0 y0 x1 y1 st
    (∀ k : Nat, (k : Int) ≤ r.dx → 0 ≤ (lineRegsAfter k r).err ∧ (lineRegsAfter k r).err ≤ r.dx - 1) ∧
      (((lineCalls x0 y0 x1 y1 st).head? = some (.pixel x0 y0 st) ∧
          (lineCalls x0 y0 x1 y1 st).getLast? = some (.pixel x1 y1 st)) ∨
        ((lineCalls x0 y0 x1 y1 st).head? = some (.pixel x1 y1 st) ∧
          (lineCalls x0 y0 x1 y1 st).getLast? = some (.pixel x0 y0 st)))

/-- R136: `max(abs(dx), abs(dy)) + 1` pixel calls in the general case, one for each integer step of the dominant axis;
one run call of that many cells otherwise. -/
def Obligations.LineCountsItsPixels : Prop :=
  (∀ (x0 y0 x1 y1 : Int) (st : PixelState), x0 ≠ x1 → y0 ≠ y1 →
    let n := max (absInt (x1 - x0)) (absInt (y1 - y0)) + 1
    ((lineCalls x0 y0 x1 y1 st).length : Int) = n ∧
      (absInt (y1 - y0) ≤ absInt (x1 - x0) → ∀ k : Nat, (k : Int) < n →
        ∃ y, (lineCalls x0 y0 x1 y1 st)[k]? = some (.pixel (min x0 x1 + k) y st)) ∧
      (absInt (x1 - x0) < absInt (y1 - y0) → ∀ k : Nat, (k : Int) < n →
        ∃ x, (lineCalls x0 y0 x1 y1 st)[k]? = some (.pixel x (min y0 y1 + k) st))) ∧
    (∀ (x0 y0 x1 y1 : Int) (st : PixelState), x0 = x1 →
      lineCalls x0 y0 x1 y1 st = [.vrun x0 (min y0 y1) (max (absInt (x1 - x0)) (absInt (y1 - y0)) + 1) st]) ∧
    (∀ (x0 y0 x1 y1 : Int) (st : PixelState), x0 ≠ x1 → y0 = y1 →
      lineCalls x0 y0 x1 y1 st = [.hrun (min x0 x1) y0 (max (absInt (x1 - x0)) (absInt (y1 - y0)) + 1) st])

/-- R137: no pixel is generated twice. -/
def Obligations.LineVisitsNoPixelTwice : Prop :=
  ∀ (x0 y0 x1 y1 : Int) (st : PixelState), (lineCalls x0 y0 x1 y1 st).Nodup

/-- R138: the k-th pixel call of the general case in closed form. -/
def Obligations.LineClosedForm : Prop :=
  ∀ (x0 y0 x1 y1 : Int) (st : PixelState) (k : Nat), x0 ≠ x1 → y0 ≠ y1 →
    let r := lineSetup x0 y0 x1 y1 st
    (k : Int) ≤ r.dx →
    (lineCalls x0 y0 x1 y1 st)[k]? = some (.pixel (lineCell r k).1 (lineCell r k).2 st)

/-- R139: the bounds of the working registers with 16-bit operands, up to the end of the loop. -/
def Obligations.LineRegistersAreBounded : Prop :=
  ∀ (x0 y0 x1 y1 : Int) (st : PixelState), wellFormed (.line x0 y0 x1 y1 st) = true → x0 ≠ x1 → y0 ≠ y1 →
    let r := lineSetup x0 y0 x1 y1 st
    ∀ k : Nat, (k : Int) ≤ r.dx + 1 →
      let q := lineRegsAfter k r
      (-32768 ≤ q.xa ∧ q.xa ≤ 32768) ∧ (-32769 ≤ q.ya ∧ q.ya ≤ 32768) ∧ (1 ≤ q.dx ∧ q.dx ≤ 65535) ∧
        (1 ≤ q.dy ∧ q.dy ≤ 65535) ∧ (-65535 ≤ q.err ∧ q.err ≤ 65534) ∧
        ((k : Int) ≤ r.dx → -65535 ≤ q.err - q.dy)

/-- R132: the same LINE with INVERT twice restores BUF. -/
def Obligations.LineInvertTwiceRestores : Prop :=
  ∀ (x0 y0 x1 y1 : Int) (s : State),
    ∃ t t', exec (.line x0 y0 x1 y1 .invert) s = .next t ∧ exec (.line x0 y0 x1 y1 .invert) t = .next t' ∧
      (∀ i, t'.buf.read i = s.buf.read i) ∧ (s.buf.wf → t' = s)

/-- R133: the traced lines. -/
def Obligations.LineTraces : Prop :=
  lineCalls 0 0 5 2 .on =
      [.pixel 0 0 .on, .pixel 1 0 .on, .pixel 2 1 .on, .pixel 3 1 .on, .pixel 4 2 .on, .pixel 5 2 .on] ∧
    lineCalls 0 0 2 5 .on =
      [.pixel 0 0 .on, .pixel 0 1 .on, .pixel 1 2 .on, .pixel 1 3 .on, .pixel 2 4 .on, .pixel 2 5 .on] ∧
    lineCalls 0 5 7 2 .on =
      [.pixel 0 5 .on, .pixel 1 5 .on, .pixel 2 4 .on, .pixel 3 4 .on, .pixel 4 3 .on, .pixel 5 3 .on, .pixel 6 2 .on,
        .pixel 7 2 .on] ∧
    lineCalls 2 9 0 1 .on =
      [.pixel 0 1 .on, .pixel 0 2 .on, .pixel 0 3 .on, .pixel 1 4 .on, .pixel 1 5 .on, .pixel 1 6 .on, .pixel 1 7 .on,
        .pixel 2 8 .on, .pixel 2 9 .on]

/-! ## The machine as a whole -/

/-- R150, R151: no command and no step faults or is refused; every command completes and the next can be accepted. -/
def Obligations.NothingEverStops : Prop :=
  (∀ s : State, ∃ t, step s = .next t) ∧
    (∀ (i : Instr) (s : State), ∃ t, exec i s = .next t ∧ cmdReady t = cmdReady s ∧ t.inputs = s.inputs)

/-- The invariant of every reachable state, kept by every step: the geometry stays legal, the buffer canonical, every set
bit a pixel of the panel (R33, R49). Its last clause, that BUSY means the reset fill with ROT, RSP and ILL at their reset
values (R170), is the model's choice (log entries 3 and 4). -/
def Obligations.StepKeepsInvariant : Prop :=
  ∀ s t : State, Inv s → step s = .next t → Inv t

/-- The reset state meets the invariant, for every legal geometry (R5, R32). That State.reset itself has 128 by 64 is the
model's choice (log entry 1). -/
def Obligations.ResetMeetsInvariant : Prop :=
  Inv State.reset ∧ ∀ g : Geometry, g.Legal → Inv { State.reset with geometry := g }

/-- R33: the bits of the last page beyond row H − 1 are 0 in every state that meets the invariant. -/
def Obligations.UnusedBitsAreZero : Prop :=
  ∀ s : State, Inv s → s.geometry.panelH % 8 ≠ 0 → ∀ x < s.geometry.panelW, ∀ k < 8, s.geometry.panelH % 8 ≤ k →
    bitAt s.buf (x + (s.geometry.pages - 1) * s.geometry.panelW, k) = false

/-- R5: the geometry never changes, and the host's remaining inputs are only ever consumed from the front. The list of
inputs is the model's own field (log entry 2). -/
def Obligations.GeometryIsFixed : Prop :=
  ∀ s t : State, step s = .next t → t.geometry = s.geometry ∧ (t.inputs = s.inputs ∨ t.inputs = s.inputs.tail)

/-- R22: ROT is changed by SETROT and reset alone, and SETROT does not alter BUF. That ROT is 0 already right after the
pulse, while the reset fill runs, is the model's choice (log entry 4). -/
def Obligations.RotChangesBySetrotOrReset : Prop :=
  (∀ s t : State, step s = .next t → t.rot ≠ s.rot →
    (∃ rest, s.inputs = .rst :: rest ∧ t.rot = 0) ∨
      ∃ w rest r, s.busy = false ∧ s.inputs = .word w :: rest ∧ decode w = .command (.setrot r) ∧ t.rot = r ∧
        t.buf = s.buf)

/-- R23: RSP holds the result of the most recent responding command, and nothing but an accepted responding command or
reset changes it. That a reset changes it at the pulse, before the fill is done, is the model's choice (log entry 4). -/
def Obligations.RspChangesByResponse : Prop :=
  (∀ (i : Instr) (s t : State), exec i s = .next t →
    match i with
    | .getpixel _ _ => t.rsp = 0x0000 ∨ t.rsp = 0x0001
    | .getwidth => t.rsp = BitVec.ofNat 16 (logicalWidth s.geometry s.rot)
    | .getheight => t.rsp = BitVec.ofNat 16 (logicalHeight s.geometry s.rot)
    | _ => t.rsp = s.rsp) ∧
    (∀ s t : State, step s = .next t → t.rsp ≠ s.rsp →
      (∃ rest, s.inputs = .rst :: rest) ∨
        ∃ w rest i, s.busy = false ∧ s.inputs = .word w :: rest ∧ decode w = .command i ∧
          ((∃ x y, i = .getpixel x y) ∨ i = .getwidth ∨ i = .getheight)) ∧
    (∀ s : State, rspData s = s.rsp)

/-- R20, R21: BUF is changed by the drawing commands, CLEAR and the reset fill alone. That the pulse leaves BUF as it is and
only the end of the fill changes it is the model's choice (log entry 4). -/
def Obligations.BufChangesByDrawing : Prop :=
  ∀ s t : State, step s = .next t → t.buf ≠ s.buf →
    (s.busy = true ∧ t.buf = []) ∨
      ∃ w rest i, s.busy = false ∧ s.inputs = .word w :: rest ∧ decode w = .command i ∧
        (i = .clear ∨ (∃ x y st, i = .setpixel x y st) ∨ (∃ x y len st, i = .hrun x y len st) ∨
          (∃ x y len st, i = .vrun x y len st) ∨ (∃ x0 y0 x1 y1 st, i = .line x0 y0 x1 y1 st))

/-- R52, R17: the effect of a command sequence is the composition of the big steps in list order. -/
def Obligations.SequenceComposesBigSteps : Prop :=
  ∀ (ws : List CommandWord) (s : State) (rest : List HostInput), s.busy = false →
    s.inputs = ws.map HostInput.word ++ rest →
    Host.Core.run core ws.length s = .next { ws.foldl wordEffect s with inputs := rest }

/-- R55, R85: no byte of BUF and no response ever decides what comes next: from two states that differ in BUF, RSP and
ILL alone, the same inputs are consumed and the same rotation follows. -/
def Obligations.BufferNeverSteersCommands : Prop :=
  ∀ s s' t t' : State, s.geometry = s'.geometry → s.rot = s'.rot → s.busy = s'.busy → s.inputs = s'.inputs →
    step s = .next t → step s' = .next t' →
    t.geometry = t'.geometry ∧ t.rot = t'.rot ∧ t.busy = t'.busy ∧ t.inputs = t'.inputs

/-- R174: CLEAR and SETROT 0 restore BUF and ROT to their reset values, and leave ILL and RSP. -/
def Obligations.ClearSetrotRestart : Prop :=
  ∀ s : State, Inv s → ∃ t, exec .clear s = .next t ∧
    exec (.setrot 0) t = .next { s with buf := State.reset.buf, rot := State.reset.rot }

/-! ## Text -/

/-- R70, R71, R72: lines of text, their words, and the words in print; a line that is not encodable assembles to nothing. -/
def Obligations.TextLinesAssemble : Prop :=
  (∀ p ∈ [("CLEAR", "10_0000_0000_0000_0000"), ("SETROT 3", "20_0000_0000_0000_0003"),
      ("SETPIXEL -1, -32768, INVERT", "38_FFFF_8000_0000_0000"), ("GETPIXEL 127, 63", "40_007F_003F_0000_0000"),
      ("HRUN 0, 0, 0, OFF ; a comment", "50_0000_0000_0000_0000"), ("VRUN 3, 5, 22, INVERT", "68_0003_0005_0016_0000"),
      ("LINE 0, 0, 3, 3, ON", "74_0000_0000_0003_0003"), ("DRAWLINE 0, 0, 3, 3, ON", "74_0000_0000_0003_0003"),
      ("DRAWFASTHLINE -3, 9, 6, ON", "54_FFFD_0009_0006_0000"), ("GETWIDTH", "80_0000_0000_0000_0000"),
      ("GETHEIGHT", "90_0000_0000_0000_0000")],
      (assembleLine p.1.toList).map printWord = some p.2.toList) ∧
    (∀ t ∈ ["SETPIXEL 32768, 0, ON", "HRUN 0, -32769, 1, ON", "SETROT 4", "SETROT -1", "LINE 0, 0, 3, 3, RED"],
      assembleLine t.toList = none)
end

