-- ==== Sys2Proof/Laws/Decode.lean ====
section
/-! SUPPORT. The fields of an assembled word are the fields it was made of, and the other way round; a 16-bit field and
the integer it stands for. -/

namespace Sys2Proof

/-- Reading the fields of an assembled word gives them back (R61). -/
@[simp] theorem commandFields_assembleFields (f : CommandFields) : commandFields (assembleFields f) = f := by
  obtain ⟨op, st, rsv, a, b, c, d⟩ := f
  simp only [commandFields, assembleFields, CommandFields.mk.injEq]
  refine ⟨?_, ?_, ?_, ?_, ?_, ?_, ?_⟩ <;> apply BitVec.eq_of_getLsbD_eq <;> intro i hi <;>
    simp only [BitVec.getLsbD_extractLsb', BitVec.getLsbD_append, hi, decide_true, Bool.true_and] <;>
    (repeat rw [if_neg (by omega)]) <;> (try rw [if_pos (by omega)]) <;> (congr 1; omega)

/-- Assembling the fields of a word gives the word back: no bit lies outside the fields (R61). -/
@[simp] theorem assembleFields_commandFields (w : CommandWord) : assembleFields (commandFields w) = w := by
  apply BitVec.eq_of_getLsbD_eq
  intro i hi
  simp only [assembleFields, commandFields, BitVec.getLsbD_append, BitVec.getLsbD_extractLsb']
  repeat' split
  all_goals
    rw [decide_eq_true (by omega), Bool.true_and]; congr 1; omega

/-- An operand that fits comes back from its field (R62). -/
theorem s16_field16 {v : Int} (h : fitsS16 v = true) : s16 (field16 v) = v := by
  simp only [fitsS16, decide_eq_true_eq] at h
  unfold s16 field16
  rw [BitVec.toNat_ofInt]
  simp only [Nat.reducePow]
  split <;> omega

/-- A field comes back from the integer it stands for (R62). -/
@[simp] theorem field16_s16 (f : BitVec 16) : field16 (s16 f) = f := by
  have := f.isLt
  apply BitVec.eq_of_toNat_eq
  unfold s16 field16
  rw [BitVec.toNat_ofInt]
  simp only [Nat.reducePow]
  split <;> omega

/-- The integer of a field always fits (R7). -/
@[simp] theorem fitsS16_s16 (f : BitVec 16) : fitsS16 (s16 f) = true := by
  have := f.isLt
  simp only [fitsS16, decide_eq_true_eq]
  unfold s16
  split <;> omega

@[simp] theorem decodeState_encodeState (st : PixelState) : decodeState (encodeState st) = some st := by
  cases st <;> rfl

/-- A state selector that decodes is that state's encoding (R63). -/
theorem encodeState_of_decodeState {f : BitVec 2} {st : PixelState} (h : decodeState f = some st) :
    encodeState st = f := by
  revert f
  cases st <;> decide

end Sys2Proof
end

