-- ==== Sys2Proof/Laws/Line.lean ====
section
/-! SUPPORT. The line loop: how many calls it makes, which call is the k-th, and which registers never change in it. -/

namespace Sys2Proof.Machine

variable (r : LineRegs)

@[simp] theorem lineAdvance_steep : (lineAdvance r).steep = r.steep := by unfold lineAdvance; split <;> rfl
@[simp] theorem lineAdvance_xa : (lineAdvance r).xa = r.xa + 1 := by unfold lineAdvance; split <;> rfl
@[simp] theorem lineAdvance_xe : (lineAdvance r).xe = r.xe := by unfold lineAdvance; split <;> rfl
@[simp] theorem lineAdvance_dx : (lineAdvance r).dx = r.dx := by unfold lineAdvance; split <;> rfl
@[simp] theorem lineAdvance_dy : (lineAdvance r).dy = r.dy := by unfold lineAdvance; split <;> rfl
@[simp] theorem lineAdvance_ystep : (lineAdvance r).ystep = r.ystep := by unfold lineAdvance; split <;> rfl
@[simp] theorem lineAdvance_st : (lineAdvance r).st = r.st := by unfold lineAdvance; split <;> rfl

theorem lineAdvance_err : (lineAdvance r).err = if r.err - r.dy < 0 then r.err - r.dy + r.dx else r.err - r.dy := by
  unfold lineAdvance; split <;> rfl

theorem lineAdvance_ya : (lineAdvance r).ya = if r.err - r.dy < 0 then r.ya + r.ystep else r.ya := by
  unfold lineAdvance; split <;> rfl

theorem lineRegsAfter_succ (k : Nat) : lineRegsAfter (k + 1) r = lineAdvance (lineRegsAfter k r) := by
  induction k generalizing r with
  | zero => rfl
  | succ k ih => exact ih (lineAdvance r)

@[simp] theorem lineRegsAfter_steep (k : Nat) : (lineRegsAfter k r).steep = r.steep := by
  induction k with
  | zero => rfl
  | succ k ih => rw [lineRegsAfter_succ]; simp [ih]

@[simp] theorem lineRegsAfter_xa (k : Nat) : (lineRegsAfter k r).xa = r.xa + k := by
  induction k with
  | zero => simp [lineRegsAfter]
  | succ k ih => rw [lineRegsAfter_succ]; simp [ih]; omega

@[simp] theorem lineRegsAfter_xe (k : Nat) : (lineRegsAfter k r).xe = r.xe := by
  induction k with
  | zero => rfl
  | succ k ih => rw [lineRegsAfter_succ]; simp [ih]

@[simp] theorem lineRegsAfter_dx (k : Nat) : (lineRegsAfter k r).dx = r.dx := by
  induction k with
  | zero => rfl
  | succ k ih => rw [lineRegsAfter_succ]; simp [ih]

@[simp] theorem lineRegsAfter_dy (k : Nat) : (lineRegsAfter k r).dy = r.dy := by
  induction k with
  | zero => rfl
  | succ k ih => rw [lineRegsAfter_succ]; simp [ih]

@[simp] theorem lineRegsAfter_ystep (k : Nat) : (lineRegsAfter k r).ystep = r.ystep := by
  induction k with
  | zero => rfl
  | succ k ih => rw [lineRegsAfter_succ]; simp [ih]

@[simp] theorem lineRegsAfter_st (k : Nat) : (lineRegsAfter k r).st = r.st := by
  induction k with
  | zero => rfl
  | succ k ih => rw [lineRegsAfter_succ]; simp [ih]

@[simp] theorem length_lineLoop (count : Nat) : (lineLoop count r).length = count := by
  induction count generalizing r with
  | zero => rfl
  | succ n ih => simp [lineLoop, ih]

/-- The k-th call of the loop is the pixel of the registers after k iterations (R131). -/
theorem getElem?_lineLoop {count k : Nat} (h : k < count) :
    (lineLoop count r)[k]? = some (linePixel (lineRegsAfter k r)) := by
  induction count generalizing r k with
  | zero => omega
  | succ n ih =>
    cases k with
    | zero => rfl
    | succ k => simpa [lineLoop, lineRegsAfter] using ih (lineAdvance r) (k := k) (by omega)

/-- Exactly the pixels of the registers after 0, 1, ... iterations. -/
theorem mem_lineLoop {count : Nat} {c : PrimitiveCall} :
    c ∈ lineLoop count r ↔ ∃ k < count, c = linePixel (lineRegsAfter k r) := by
  rw [List.mem_iff_getElem?]
  constructor
  · rintro ⟨k, hk⟩
    have hlt : k < count := by
      have := (List.getElem?_eq_some_iff.1 hk).1
      simpa using this
    rw [getElem?_lineLoop r hlt] at hk
    exact ⟨k, hlt, (Option.some.inj hk).symm⟩
  · rintro ⟨k, hk, rfl⟩
    exact ⟨k, getElem?_lineLoop r hk⟩

theorem absInt_eq (v : Int) : absInt v = if v < 0 then -v else v := by unfold absInt; omega

theorem absInt_nonneg (v : Int) : 0 ≤ absInt v := by unfold absInt; omega

/-- What the set-up leaves in the registers of the general case (R131): the extents, the order, the error term. -/
theorem lineSetup_spec {x0 y0 x1 y1 : Int} {st : PixelState} (hx : x0 ≠ x1) (hy : y0 ≠ y1) :
    let r := lineSetup x0 y0 x1 y1 st
    1 ≤ r.dy ∧ r.dy ≤ r.dx ∧ r.dx = r.xe - r.xa ∧ r.err = r.dx / 2 ∧ r.st = st ∧ (r.ystep = 1 ∨ r.ystep = -1) ∧
      r.dx = max (absInt (x1 - x0)) (absInt (y1 - y0)) := by
  unfold lineSetup isSteep orderedRegs absInt
  simp only
  split <;> next h =>
    simp only [decide_eq_true_eq] at h
    split <;> refine ⟨?_, ?_, ?_, ?_, ?_, ?_, ?_⟩ <;> first | rfl | (simp only; omega)

variable (g : Geometry) (rot : BitVec 2) (x y len : Int) (st : PixelState)

@[simp] theorem routedRun_pixel : routedRun g rot (.pixel x y st) = none := rfl
@[simp] theorem routedRun_hrun : routedRun g rot (.hrun x y len st) = some (hRunRoute g rot x y len) := rfl
@[simp] theorem routedRun_vrun : routedRun g rot (.vrun x y len st) = some (vRunRoute g rot x y len) := rfl

/-- A pixel call is routed to no run primitive (R131). -/
@[simp] theorem routedRun_linePixel : routedRun g rot (linePixel r) = none := by
  unfold linePixel
  split <;> rfl

end Sys2Proof.Machine
end

