-- ==== Sys2Proof/Laws/Memory.lean ====
section
/-! SUPPORT. The buffer: a read after a write, the canonical form, and that a canonical buffer is determined by its bytes. -/

namespace Sys2Proof.Machine

variable {m : Memory} {i j : Nat} {v : Byte}

@[simp] theorem read_nil : Memory.read [] i = 0 := rfl

theorem read_cons (a : Nat) (b : Byte) (rest : Memory) :
    Memory.read ((a, b) :: rest) i = if a = i then b else Memory.read rest i := rfl

theorem read_place : (Memory.place m i v).read j = if i = j then v else m.read j := by
  induction m with
  | nil => simp [Memory.place, read_cons]
  | cons c rest ih =>
    obtain ⟨a, b⟩ := c
    unfold Memory.place
    split
    · rw [read_cons, read_cons, ih]
      split <;> split <;> first | rfl | omega
    · split
      · subst a; simp only [read_cons]; split <;> rfl
      · simp only [read_cons]

theorem read_filter : Memory.read (m.filter (fun c => c.1 ≠ i)) j = if i = j then 0 else m.read j := by
  induction m with
  | nil => simp
  | cons c rest ih =>
    obtain ⟨a, b⟩ := c
    by_cases h : a = i
    · subst a; simp only [List.filter_cons, ne_eq, not_true, decide_false, read_cons]
      simp only [Bool.false_eq_true, ite_false]
      simp only [ne_eq] at ih
      rw [ih]; split <;> simp_all
    · simp only [List.filter_cons, ne_eq, h, not_false_eq_true, decide_true, ite_true, read_cons]
      simp only [ne_eq] at ih
      rw [ih]; split <;> split <;> first | rfl | omega

/-- What a read sees after a write, on any list whatever. -/
theorem read_write : (m.write i v).read j = if i = j then v else m.read j := by
  unfold Memory.write
  split
  · next h => subst h; exact read_filter
  · exact read_place

@[simp] theorem read_write_same : (m.write i v).read i = v := by simp [read_write]

theorem read_write_other (h : i ≠ j) : (m.write i v).read j = m.read j := by simp [read_write, h]

theorem mem_place {c : Host.Cell} (h : c ∈ Memory.place m i v) : c = (i, v) ∨ c ∈ m := by
  induction m with
  | nil => simpa [Memory.place] using h
  | cons d rest ih =>
    obtain ⟨a, b⟩ := d
    unfold Memory.place at h
    split at h
    · rcases List.mem_cons.1 h with rfl | h
      · simp
      · rcases ih h with h | h <;> simp [h]
    · split at h
      · rcases List.mem_cons.1 h with rfl | h <;> simp_all
      · rcases List.mem_cons.1 h with rfl | h <;> simp_all

/-- A cell of a written buffer is the written one, or was there before. -/
theorem mem_write {c : Host.Cell} (h : c ∈ m.write i v) : c = (i, v) ∨ c ∈ m := by
  unfold Memory.write at h
  split at h
  · exact .inr (List.mem_filter.1 h).1
  · exact mem_place h

theorem pairwise_place (h : m.Pairwise (fun c d => c.1 < d.1)) :
    (Memory.place m i v).Pairwise (fun c d => c.1 < d.1) := by
  induction m with
  | nil => simp [Memory.place]
  | cons d rest ih =>
    obtain ⟨a, b⟩ := d
    obtain ⟨h1, h2⟩ := List.pairwise_cons.1 h
    unfold Memory.place
    split
    · next hlt =>
      refine List.pairwise_cons.2 ⟨fun c hc => ?_, ih h2⟩
      rcases mem_place hc with rfl | hc
      · exact hlt
      · exact h1 c hc
    · split
      · next heq => subst a; exact List.pairwise_cons.2 ⟨h1, h2⟩
      · refine List.pairwise_cons.2 ⟨fun c hc => ?_, h⟩
        rcases List.mem_cons.1 hc with rfl | hc
        · simp only; omega
        · have := h1 c hc; simp only at this ⊢; omega

theorem wf_nil : Memory.wf [] := ⟨List.Pairwise.nil, fun _ h => absurd h List.not_mem_nil⟩

/-- Every write keeps the canonical form. -/
theorem wf_write (h : m.wf) : (m.write i v).wf := by
  unfold Memory.write
  split
  · exact ⟨h.1.filter _, fun c hc => h.2 c (List.mem_filter.1 hc).1⟩
  · next hv =>
    refine ⟨pairwise_place h.1, fun c hc => ?_⟩
    rcases mem_place hc with rfl | hc
    · exact hv
    · exact h.2 c hc

theorem read_of_lt_all (h : ∀ c ∈ m, i < c.1) : m.read i = 0 := by
  induction m with
  | nil => rfl
  | cons c rest ih =>
    obtain ⟨a, b⟩ := c
    have h0 := h (a, b) (by simp)
    rw [read_cons, if_neg (by simp only at h0; omega)]
    exact ih fun c hc => h c (List.mem_cons_of_mem _ hc)

theorem read_of_mem {c : Host.Cell} (h : m.wf) (hc : c ∈ m) : m.read c.1 = c.2 := by
  induction m with
  | nil => simp at hc
  | cons d rest ih =>
    obtain ⟨a, b⟩ := d
    obtain ⟨h1, h2⟩ := List.pairwise_cons.1 h.1
    rcases List.mem_cons.1 hc with rfl | hc'
    · simp [read_cons]
    · have := h1 c hc'
      rw [read_cons, if_neg (by simp only at this; omega)]
      exact ih ⟨h2, fun c hc => h.2 c (List.mem_cons_of_mem _ hc)⟩ hc'

theorem mem_of_read (h : m.read i ≠ 0) : (i, m.read i) ∈ m := by
  induction m with
  | nil => simp at h
  | cons d rest ih =>
    obtain ⟨a, b⟩ := d
    rw [read_cons] at h ⊢
    split
    · next heq => subst heq; simp
    · next hne => rw [if_neg hne] at h; exact List.mem_cons_of_mem _ (ih h)

/-- Canonical buffers with the same bytes are the same data. -/
theorem wf_ext {m m' : Memory} (h : m.wf) (h' : m'.wf) (hr : ∀ i, m.read i = m'.read i) : m = m' := by
  have mem : ∀ c, c ∈ m ↔ c ∈ m' := by
    intro c
    constructor
    · intro hc
      have e := read_of_mem h hc
      have : m'.read c.1 ≠ 0 := by rw [← hr, e]; exact h.2 c hc
      have := mem_of_read this
      rwa [← hr, e] at this
    · intro hc
      have e := read_of_mem h' hc
      have : m.read c.1 ≠ 0 := by rw [hr, e]; exact h'.2 c hc
      have := mem_of_read this
      rwa [hr, e] at this
  have irr : ∀ {l : Memory}, l.Pairwise (fun c d => c.1 < d.1) → l.Nodup := fun hl =>
    hl.imp fun hlt heq => by subst heq; omega
  refine List.Perm.eq_of_pairwise (le := fun c d : Host.Cell => c.1 < d.1) ?_ h.1 h'.1 ?_
  · intro a b _ _ h1 h2; omega
  · exact (List.perm_ext_iff_of_nodup (irr h.1) (irr h'.1)).2 mem

end Sys2Proof.Machine
end

