-- ==== Sys2Proof/Laws/Masked.lean ====
section
/-! SUPPORT. What the masked accesses, the byte loops and the phases of a vertical run do to every bit of the buffer, and
that each of them keeps the canonical form. -/

namespace Sys2Proof.Machine

variable {g : Geometry} {rot : BitVec 2} {st : PixelState} {m : Memory}

theorem getLsbD_maskedByte (b mask : Byte) (k : Nat) :
    (maskedByte st b mask).getLsbD k = if mask.getLsbD k then newBit st (b.getLsbD k) else b.getLsbD k := by
  by_cases hk : k < 8
  · rw [BitVec.getLsbD_eq_getElem hk, BitVec.getLsbD_eq_getElem hk, BitVec.getLsbD_eq_getElem hk]
    cases st <;> cases h : mask[k] <;> simp [maskedByte, newBit, h]
  · rw [BitVec.getLsbD_of_ge _ _ (by omega), BitVec.getLsbD_of_ge mask _ (by omega),
      BitVec.getLsbD_of_ge b _ (by omega)]
    simp

theorem read_applyMask (idx : Nat) (mask : Byte) (i : Nat) :
    (applyMask m idx mask st).read i = if idx = i then maskedByte st (m.read i) mask else m.read i := by
  unfold applyMask
  rw [read_write]
  split
  · next h => rw [h]
  · rfl

/-- `Apply` on every bit of the buffer (R96). -/
theorem bitAt_applyMask (idx : Nat) (mask : Byte) (p : Nat × Nat) :
    bitAt (applyMask m idx mask st) p =
      if idx = p.1 ∧ mask.getLsbD p.2 = true then newBit st (bitAt m p) else bitAt m p := by
  unfold bitAt
  rw [read_applyMask]
  by_cases h : idx = p.1 <;> simp [h, getLsbD_maskedByte]

/-- Phase (b)'s whole-byte access is `Apply` with mask 0xFF (R95, R112). -/
theorem fillByte_eq_applyMask (idx : Nat) : fillByte m idx st = applyMask m idx 0xFF st := by
  have h1 : ∀ b : Byte, b ||| 255 = 255 := by decide
  have h2 : ∀ b : Byte, b &&& ~~~255 = 0 := by decide
  cases st
  · simp only [fillByte, applyMask, maskedByte]; rw [h2]
  · simp only [fillByte, applyMask, maskedByte]; rw [h1]
  · rfl

theorem getLsbD_bitMask {bit : Nat} (h : bit < 8) (k : Nat) : (bitMask bit).getLsbD k = decide (k = bit) := by
  unfold bitMask
  by_cases hk : k < 8
  · have : ∀ bit < 8, ∀ k < 8, (1#8 <<< bit).getLsbD k = decide (k = bit) := by decide
    exact this bit h k hk
  · rw [BitVec.getLsbD_of_ge _ _ (by omega)]
    simp; omega

theorem getLsbD_topMask {first : Nat} (h : first < 8) {k : Nat} (hk : k < 8) :
    (topMask first).getLsbD k = decide (first ≤ k) := by
  have : ∀ first < 8, ∀ k < 8, (topMask first).getLsbD k = decide (first ≤ k) := by decide
  exact this first h k hk

theorem getLsbD_shortMask {n : Nat} (h : n < 8) {k : Nat} (hk : k < 8) :
    (shortMask n).getLsbD k = decide (k + n < 8) := by
  have : ∀ n < 8, ∀ k < 8, (shortMask n).getLsbD k = decide (k + n < 8) := by decide
  exact this n h k hk

theorem getLsbD_lowMask {h : Nat} (hh : h < 8) {k : Nat} (hk : k < 8) : (lowMask h).getLsbD k = decide (k < h) := by
  have : ∀ h < 8, ∀ k < 8, (lowMask h).getLsbD k = decide (k < h) := by decide
  exact this h hh k hk

/-- The column loop on every bit (R110). -/
theorem bitAt_applyColumns (mask : Byte) (count idx : Nat) (p : Nat × Nat) :
    bitAt (applyColumns st mask count idx m) p =
      if (idx ≤ p.1 ∧ p.1 < idx + count) ∧ mask.getLsbD p.2 = true then newBit st (bitAt m p) else bitAt m p := by
  induction count generalizing idx m with
  | zero => rw [if_neg (by omega)]; rfl
  | succ n ih =>
    unfold applyColumns
    rw [ih, bitAt_applyMask]
    by_cases hm : mask.getLsbD p.2 = true
    · simp only [hm, and_true]
      by_cases h1 : idx = p.1
      · have h2 : ¬ (idx + 1 ≤ p.1 ∧ p.1 < idx + 1 + n) := by omega
        have h3 : idx ≤ p.1 ∧ p.1 < idx + (n + 1) := by omega
        simp only [if_pos h1, if_neg h2, if_pos h3]
      · have h2 : (idx + 1 ≤ p.1 ∧ p.1 < idx + 1 + n) ↔ (idx ≤ p.1 ∧ p.1 < idx + (n + 1)) := by omega
        simp only [if_neg h1, h2]
    · simp [hm]

/-- The page loop on every bit, for pages at least one byte apart (R112 (b)). -/
theorem bitAt_fillPages {w : Nat} (hw : 0 < w) (pages idx : Nat) (p : Nat × Nat) (hp : p.2 < 8) :
    bitAt (fillPages w st pages idx m) p =
      if (∃ j < pages, p.1 = idx + j * w) then newBit st (bitAt m p) else bitAt m p := by
  induction pages generalizing idx m with
  | zero => simp [fillPages]
  | succ n ih =>
    unfold fillPages
    rw [ih, fillByte_eq_applyMask, bitAt_applyMask]
    have hff : ∀ k < 8, (0xFF : Byte).getLsbD k = true := by decide
    simp only [hff p.2 hp, and_true]
    by_cases h1 : idx = p.1
    · have h2 : ¬ ∃ j < n, p.1 = idx + w + j * w := by
        rintro ⟨j, -, hj⟩
        have : 0 ≤ j * w := Nat.zero_le _
        omega
      have h3 : ∃ j < n + 1, p.1 = idx + j * w := ⟨0, by omega, by omega⟩
      simp only [if_pos h1, if_neg h2, if_pos h3]
    · have h2 : (∃ j < n, p.1 = idx + w + j * w) ↔ (∃ j < n + 1, p.1 = idx + j * w) := by
        constructor
        · rintro ⟨j, hj, e⟩
          exact ⟨j + 1, by omega, by rw [e, Nat.succ_mul]; omega⟩
        · rintro ⟨j, hj, e⟩
          cases j with
          | zero => omega
          | succ j => exact ⟨j, by omega, by rw [e, Nat.succ_mul]; omega⟩
      simp only [if_neg h1, h2]

/-- Phases (b) and (c) from a page boundary: `h` rows of one column, eight to a byte (R112). -/
theorem bitAt_pvrunBelow {w : Nat} (hw : 0 < w) (h idx : Nat) (p : Nat × Nat) (hp : p.2 < 8) :
    bitAt (pvrunBelow w st m h idx) p =
      if (∃ r < h, p = (idx + r / 8 * w, r % 8)) then newBit st (bitAt m p) else bitAt m p := by
  obtain ⟨i, k⟩ := p
  simp only at hp
  have inj : ∀ a b : Nat, idx + a * w = idx + b * w → a = b := fun a b e =>
    Nat.eq_of_mul_eq_mul_right hw (by omega)
  have hpages : (∃ j < h / 8, i = idx + j * w) → ∃ r < h, (i, k) = (idx + r / 8 * w, r % 8) := by
    rintro ⟨j, hj, e⟩
    exact ⟨8 * j + k, by omega, by rw [e]; congr 2 <;> first | omega | (congr 1; omega)⟩
  unfold pvrunBelow
  simp only
  split
  · next hr =>
    rw [bitAt_applyMask, bitAt_fillPages hw _ _ _ hp]
    simp only [getLsbD_lowMask (show h % 8 < 8 by omega) hp, decide_eq_true_eq]
    by_cases h1 : idx + h / 8 * w = i ∧ k < h % 8
    · have h2 : ¬ ∃ j < h / 8, i = idx + j * w := by
        rintro ⟨j, hj, e⟩
        have := inj _ _ (h1.1.trans e)
        omega
      have h3 : ∃ r < h, (i, k) = (idx + r / 8 * w, r % 8) :=
        ⟨8 * (h / 8) + k, by omega, by rw [← h1.1]; congr 2 <;> first | omega | (congr 1; omega)⟩
      simp only [if_pos h1, if_neg h2, if_pos h3]
    · have h2 : (∃ j < h / 8, i = idx + j * w) ↔ ∃ r < h, (i, k) = (idx + r / 8 * w, r % 8) := by
        refine ⟨hpages, ?_⟩
        rintro ⟨r, hr, e⟩
        simp only [Prod.mk.injEq] at e
        by_cases h4 : r / 8 < h / 8
        · exact ⟨r / 8, h4, e.1⟩
        · have h5 : r / 8 = h / 8 := by omega
          exact absurd ⟨by rw [e.1, h5], by omega⟩ h1
      simp only [if_neg h1, h2]
  · next hr =>
    rw [bitAt_fillPages hw _ _ _ hp]
    have h2 : (∃ j < h / 8, i = idx + j * w) ↔ ∃ r < h, (i, k) = (idx + r / 8 * w, r % 8) := by
      refine ⟨hpages, ?_⟩
      rintro ⟨r, hr, e⟩
      simp only [Prod.mk.injEq] at e
      exact ⟨r / 8, by omega, e.1⟩
    simp only [h2]

/-- The three phases on every bit: exactly the `h` rows from `y` on, in the column at `base` (R112, R113). -/
theorem bitAt_pvrunPhases {w : Nat} (hw : 0 < w) {y h : Nat} (hh : 0 < h) (base : Nat) (p : Nat × Nat) (hp : p.2 < 8) :
    bitAt (pvrunPhases w st m y h (base + y / 8 * w)) p =
      if (∃ r < y + h, y ≤ r ∧ p = (base + r / 8 * w, r % 8)) then newBit st (bitAt m p) else bitAt m p := by
  obtain ⟨i, k⟩ := p
  simp only at hp
  have inj : ∀ a b : Nat, base + a * w = base + b * w → a = b := fun a b e =>
    Nat.eq_of_mul_eq_mul_right hw (by omega)
  have shift : ∀ (q n : Nat), base + q * w + n * w = base + (q + n) * w := fun q n => by rw [Nat.add_mul]; omega
  unfold pvrunPhases
  simp only
  split
  · next h0 =>
    rw [bitAt_pvrunBelow hw _ _ _ hp]
    have : (∃ r < h, (i, k) = (base + y / 8 * w + r / 8 * w, r % 8)) ↔
        ∃ r < y + h, y ≤ r ∧ (i, k) = (base + r / 8 * w, r % 8) := by
      constructor
      · rintro ⟨r, hr, e⟩
        simp only [shift, Prod.mk.injEq] at e
        refine ⟨y + r, by omega, by omega, ?_⟩
        rw [e.1, e.2, show (y + r) / 8 = y / 8 + r / 8 by omega, show (y + r) % 8 = r % 8 by omega]
      · rintro ⟨r, h1, h2, e⟩
        simp only [Prod.mk.injEq] at e
        refine ⟨r - y, by omega, ?_⟩
        rw [shift, e.1, e.2, show y / 8 + (r - y) / 8 = r / 8 by omega, show (r - y) % 8 = r % 8 by omega]
    simp only [this]
  · split
    · next h0 hlt =>
      rw [bitAt_applyMask]
      have hmask : (topMask (y % 8) &&& shortMask (8 - y % 8 - h)).getLsbD k = true ↔
          (y % 8 ≤ k ∧ k + (8 - y % 8 - h) < 8) := by
        rw [BitVec.getLsbD_and, getLsbD_topMask (by omega) hp, getLsbD_shortMask (by omega) hp]
        simp
      have : (base + y / 8 * w = i ∧ (topMask (y % 8) &&& shortMask (8 - y % 8 - h)).getLsbD k = true) ↔
          ∃ r < y + h, y ≤ r ∧ (i, k) = (base + r / 8 * w, r % 8) := by
        rw [hmask]
        constructor
        · rintro ⟨e, h1, h2⟩
          refine ⟨8 * (y / 8) + k, by omega, by omega, ?_⟩
          rw [← e, show (8 * (y / 8) + k) / 8 = y / 8 by omega, show (8 * (y / 8) + k) % 8 = k by omega]
        · rintro ⟨r, h1, h2, e⟩
          simp only [Prod.mk.injEq] at e
          refine ⟨?_, by omega, by omega⟩
          rw [e.1, show r / 8 = y / 8 by omega]
      simp only [this]
    · next h0 hge =>
      rw [bitAt_pvrunBelow hw _ _ _ hp, bitAt_applyMask]
      simp only [getLsbD_topMask (show y % 8 < 8 by omega) hp, decide_eq_true_eq]
      have e1 : ∀ n : Nat, base + y / 8 * w + w + n * w = base + (y / 8 + 1 + n) * w := fun n => by
        rw [Nat.add_mul, Nat.add_mul]; omega
      by_cases ha : base + y / 8 * w = i ∧ y % 8 ≤ k
      · have h2 : ¬ ∃ r < h - (8 - y % 8), (i, k) = (base + y / 8 * w + w + r / 8 * w, r % 8) := by
          rintro ⟨r, hr, e⟩
          simp only [e1, Prod.mk.injEq] at e
          have := inj _ _ (ha.1.trans e.1)
          omega
        have h3 : ∃ r < y + h, y ≤ r ∧ (i, k) = (base + r / 8 * w, r % 8) := by
          refine ⟨8 * (y / 8) + k, by omega, by omega, ?_⟩
          rw [← ha.1, show (8 * (y / 8) + k) / 8 = y / 8 by omega, show (8 * (y / 8) + k) % 8 = k by omega]
        simp only [if_pos ha, if_neg h2, if_pos h3]
      · have h2 : (∃ r < h - (8 - y % 8), (i, k) = (base + y / 8 * w + w + r / 8 * w, r % 8)) ↔
            ∃ r < y + h, y ≤ r ∧ (i, k) = (base + r / 8 * w, r % 8) := by
          constructor
          · rintro ⟨r, hr, e⟩
            simp only [e1, Prod.mk.injEq] at e
            refine ⟨8 * (y / 8 + 1) + r, by omega, by omega, ?_⟩
            rw [e.1, e.2, show (8 * (y / 8 + 1) + r) / 8 = y / 8 + 1 + r / 8 by omega,
              show (8 * (y / 8 + 1) + r) % 8 = r % 8 by omega]
          · rintro ⟨r, h3, h4, e⟩
            simp only [Prod.mk.injEq] at e
            by_cases h5 : r / 8 = y / 8
            · exact absurd ⟨by rw [e.1, h5], by omega⟩ ha
            · refine ⟨r - 8 * (y / 8 + 1), by omega, ?_⟩
              rw [e1, e.1, e.2, show y / 8 + 1 + (r - 8 * (y / 8 + 1)) / 8 = r / 8 by omega,
                show (r - 8 * (y / 8 + 1)) % 8 = r % 8 by omega]
        simp only [if_neg ha, h2]

/-- CLEAR's loop on every byte (R80). -/
theorem read_clearBytes (count idx i : Nat) :
    (clearBytes count idx m).read i = if idx ≤ i ∧ i < idx + count then 0 else m.read i := by
  induction count generalizing idx m with
  | zero => rw [if_neg (by omega)]; rfl
  | succ n ih =>
    unfold clearBytes
    rw [ih, read_write]
    split
    · rw [if_pos (by omega)]
    · split
      · rw [if_pos (by omega)]
      · rw [if_neg (by omega)]

/-! The canonical form is kept by every operation on the buffer. -/

theorem wf_applyMask (h : m.wf) (idx : Nat) (mask : Byte) : (applyMask m idx mask st).wf := wf_write h

theorem wf_fillByte (h : m.wf) (idx : Nat) : (fillByte m idx st).wf := by
  rw [fillByte_eq_applyMask]; exact wf_applyMask h _ _

theorem wf_clearBytes (h : m.wf) (count idx : Nat) : (clearBytes count idx m).wf := by
  induction count generalizing idx m with
  | zero => exact h
  | succ n ih => exact ih (wf_write h) _

theorem wf_applyColumns (h : m.wf) (mask : Byte) (count idx : Nat) : (applyColumns st mask count idx m).wf := by
  induction count generalizing idx m with
  | zero => exact h
  | succ n ih => exact ih (wf_applyMask h _ _) _

theorem wf_fillPages (h : m.wf) (w pages idx : Nat) : (fillPages w st pages idx m).wf := by
  induction pages generalizing idx m with
  | zero => exact h
  | succ n ih => exact ih (wf_fillByte h _) _

theorem wf_pvrunBelow (h : m.wf) (w n idx : Nat) : (pvrunBelow w st m n idx).wf := by
  unfold pvrunBelow
  simp only
  split
  · exact wf_applyMask (wf_fillPages h _ _ _) _ _
  · exact wf_fillPages h _ _ _

theorem wf_phrun (h : m.wf) (px py len : Int) : (phrun g st m px py len).wf := by
  unfold phrun
  simp only
  split
  · exact h
  · split
    · exact h
    · exact wf_applyColumns h _ _ _

theorem wf_pvrun (h : m.wf) (px py len : Int) : (pvrun g st m px py len).wf := by
  unfold pvrun pvrunPhases
  simp only
  split
  · exact h
  · split
    · exact h
    · split
      · exact wf_pvrunBelow h _ _ _
      · split
        · exact wf_applyMask h _ _
        · exact wf_pvrunBelow (wf_applyMask h _ _) _ _ _

theorem wf_setPixelLogical (h : m.wf) (x y : Int) : (setPixelLogical g rot st m x y).wf := by
  unfold setPixelLogical
  split
  · exact wf_applyMask h _ _
  · exact h

theorem wf_performRun (h : m.wf) (r : PhysicalRun) : (performRun g st m r).wf := by
  cases r
  · exact wf_phrun h _ _ _
  · exact wf_pvrun h _ _ _

theorem wf_hRunLogical (h : m.wf) (x y len : Int) : (hRunLogical g rot st m x y len).wf := wf_performRun h _

theorem wf_vRunLogical (h : m.wf) (x y len : Int) : (vRunLogical g rot st m x y len).wf := wf_performRun h _

theorem wf_performCalls (calls : List PrimitiveCall) (h : m.wf) : (performCalls g rot calls m).wf := by
  induction calls generalizing m with
  | nil => exact h
  | cons c rest ih =>
    refine ih ?_
    cases c
    · exact wf_setPixelLogical h _ _
    · exact wf_hRunLogical h _ _ _
    · exact wf_vRunLogical h _ _ _

end Sys2Proof.Machine
end

