-- ==== Sys2Proof/Laws/Operands.lean ====
section
/-! SUPPORT. The coordinate path, rotation by rotation: the logical size, the transform, the range check, the bit address. -/

namespace Sys2Proof.Machine

variable (g : Geometry) (x y : Int)

/-- The four rotations (R22). -/
theorem rot_cases (r : BitVec 2) : r = 0#2 ∨ r = 1#2 ∨ r = 2#2 ∨ r = 3#2 := by revert r; decide

@[simp] theorem logicalWidth_zero : logicalWidth g 0#2 = g.panelW := rfl
@[simp] theorem logicalWidth_one : logicalWidth g 1#2 = g.panelH := rfl
@[simp] theorem logicalWidth_two : logicalWidth g 2#2 = g.panelW := rfl
@[simp] theorem logicalWidth_three : logicalWidth g 3#2 = g.panelH := rfl
@[simp] theorem logicalHeight_zero : logicalHeight g 0#2 = g.panelH := rfl
@[simp] theorem logicalHeight_one : logicalHeight g 1#2 = g.panelW := rfl
@[simp] theorem logicalHeight_two : logicalHeight g 2#2 = g.panelH := rfl
@[simp] theorem logicalHeight_three : logicalHeight g 3#2 = g.panelW := rfl

@[simp] theorem xform_zero : xform g 0#2 x y = (x, y) := rfl
@[simp] theorem xform_one : xform g 1#2 x y = ((g.panelW : Int) - 1 - y, x) := rfl
@[simp] theorem xform_two : xform g 2#2 x y = ((g.panelW : Int) - 1 - x, (g.panelH : Int) - 1 - y) := rfl
@[simp] theorem xform_three : xform g 3#2 x y = (y, (g.panelH : Int) - 1 - x) := rfl

/-- The bit address of natural coordinates (R94). -/
theorem bitAddr_nat (px py : Nat) : bitAddr g ((px : Int), (py : Int)) = (px + py / 8 * g.panelW, py % 8) := by
  unfold bitAddr
  simp only [Prod.mk.injEq]
  constructor
  · have e : (px : Int) + (py : Int) / 8 * (g.panelW : Int) = ((px + py / 8 * g.panelW : Nat) : Int) := by
      push_cast; rfl
    rw [e]; rfl
  · have e : (py : Int) % 8 = ((py % 8 : Nat) : Int) := by push_cast; rfl
    rw [e]; rfl

/-- Every bit number is below 8, whatever the coordinates (R94). -/
theorem bitAddr_bit_lt (p : Int × Int) : (bitAddr g p).2 < 8 := by
  unfold bitAddr
  simp only
  omega

end Sys2Proof.Machine
end

