-- ==== Sys2Proof/Laws/PerInstr.lean ====
section
/-! SUPPORT. Per instruction: the fields of its word are those that spec/30_encoding.md R65's row gives it. -/

namespace Sys2Proof.Laws.EncodedFields

/-- The encoder's word holds the row's fields and nothing else. -/
def Statement (i : Instr) : Prop := commandFields (encode i) = instrFields i

theorem clear : Statement .clear := commandFields_assembleFields _
theorem setrot (r : BitVec 2) : Statement (.setrot r) := commandFields_assembleFields _
theorem setpixel (x y : Int) (st : PixelState) : Statement (.setpixel x y st) := commandFields_assembleFields _
theorem getpixel (x y : Int) : Statement (.getpixel x y) := commandFields_assembleFields _
theorem hrun (x y len : Int) (st : PixelState) : Statement (.hrun x y len st) := commandFields_assembleFields _
theorem vrun (x y len : Int) (st : PixelState) : Statement (.vrun x y len st) := commandFields_assembleFields _
theorem line (x0 y0 x1 y1 : Int) (st : PixelState) : Statement (.line x0 y0 x1 y1 st) := commandFields_assembleFields _
theorem getwidth : Statement .getwidth := commandFields_assembleFields _
theorem getheight : Statement .getheight := commandFields_assembleFields _

end Sys2Proof.Laws.EncodedFields
end

