-- ==== Sys2Proof/Laws/Pixel.lean ====
section
/-! SUPPORT. What one SetPixelLogical does to every bit of the buffer, and what equal bits say of bytes. -/

namespace Sys2Proof.Machine

variable {g : Geometry} {rot : BitVec 2} {st : PixelState} {m : Memory}

/-- SetPixelLogical on every bit (R97): the addressed one when in range, and no other. -/
theorem bitAt_setPixelLogical (x y : Int) (p : Nat × Nat) :
    bitAt (setPixelLogical g rot st m x y) p =
      if InRange g rot x y ∧ p = logicalBit g rot x y then newBit st (bitAt m p) else bitAt m p := by
  unfold setPixelLogical
  split
  · next h =>
    have hb : (logicalBit g rot x y).2 < 8 := bitAddr_bit_lt _ _
    rw [bitAt_applyMask, getLsbD_bitMask hb]
    have e : (logicalBit g rot x y).1 = p.1 ∧ decide (p.2 = (logicalBit g rot x y).2) = true ↔
        InRange g rot x y ∧ p = logicalBit g rot x y := by
      rw [decide_eq_true_eq, Prod.ext_iff]
      exact ⟨fun ⟨a, b⟩ => ⟨h, a.symm, b⟩, fun ⟨_, a, b⟩ => ⟨a.symm, b⟩⟩
    simp only [e]
  · next h => rw [if_neg fun k => h k.1]

/-- A byte is its eight bits. -/
theorem read_eq_of_bitAt {m m' : Memory} {i : Nat} (h : ∀ k, bitAt m (i, k) = bitAt m' (i, k)) :
    m.read i = m'.read i :=
  BitVec.eq_of_getLsbD_eq fun k _ => h k

end Sys2Proof.Machine
end

