-- ==== Sys2Proof/Laws/Runs.lean ====
section
/-! SUPPORT. What the two physical run primitives do to every bit of the buffer: exactly the cells that the clip leaves. -/

namespace Sys2Proof.Machine

variable {g : Geometry} {st : PixelState} {m : Memory}

/-! The routing tables, row by row (R114, R115), and what each routed call performs. -/

@[simp] theorem hRunRoute_zero (x y len : Int) : hRunRoute g 0#2 x y len = .row x y len := rfl
@[simp] theorem hRunRoute_one (x y len : Int) :
    hRunRoute g 1#2 x y len = .column ((g.panelW : Int) - 1 - y) x len := rfl
@[simp] theorem hRunRoute_two (x y len : Int) :
    hRunRoute g 2#2 x y len = .row (movedAnchor g.panelW x len) ((g.panelH : Int) - 1 - y) len := rfl
@[simp] theorem hRunRoute_three (x y len : Int) :
    hRunRoute g 3#2 x y len = .column y (movedAnchor g.panelH x len) len := rfl
@[simp] theorem vRunRoute_zero (x y len : Int) : vRunRoute g 0#2 x y len = .column x y len := rfl
@[simp] theorem vRunRoute_one (x y len : Int) : vRunRoute g 1#2 x y len = .row (movedAnchor g.panelW y len) x len := rfl
@[simp] theorem vRunRoute_two (x y len : Int) :
    vRunRoute g 2#2 x y len = .column ((g.panelW : Int) - 1 - x) (movedAnchor g.panelH y len) len := rfl
@[simp] theorem vRunRoute_three (x y len : Int) :
    vRunRoute g 3#2 x y len = .row y ((g.panelH : Int) - 1 - x) len := rfl
@[simp] theorem performRun_row (px py len : Int) : performRun g st m (.row px py len) = phrun g st m px py len := rfl
@[simp] theorem performRun_column (px py len : Int) :
    performRun g st m (.column px py len) = pvrun g st m px py len := rfl

/-- What a clip leaves lies on the axis (R110, R111). -/
theorem clipRun_bounds {size start len : Int} (h : 0 < (clipRun size start len).2 - (clipRun size start len).1) :
    0 ≤ (clipRun size start len).1 ∧ (clipRun size start len).1 < (clipRun size start len).2 ∧
      (clipRun size start len).2 ≤ size := by
  simp only [clipRun] at h ⊢
  omega

/-- The bit of a buffer beyond the eight of a byte is 0. -/
theorem bitAt_of_ge {p : Nat × Nat} (h : 8 ≤ p.2) : bitAt m p = false := BitVec.getLsbD_of_ge _ _ h

/-- PHRUN on every bit (R110). -/
theorem bitAt_phrun (px py len : Int) (p : Nat × Nat) :
    (∀ c : Int, 0 ≤ py → py < g.panelH → max px 0 ≤ c → c < min (px + len) g.panelW → p = bitAddr g (c, py) →
        bitAt (phrun g st m px py len) p = newBit st (bitAt m p)) ∧
      ((∀ c : Int, 0 ≤ py → py < g.panelH → max px 0 ≤ c → c < min (px + len) g.panelW → p ≠ bitAddr g (c, py)) →
        bitAt (phrun g st m px py len) p = bitAt m p) := by
  unfold phrun clipRun
  simp only
  split
  · next h => exact ⟨fun c h1 h2 => by omega, fun _ => rfl⟩
  · next h =>
    obtain ⟨y, rfl⟩ := Int.eq_ofNat_of_zero_le (show 0 ≤ py by omega)
    split
    · next h2 => exact ⟨fun c _ _ h3 h4 => by omega, fun _ => rfl⟩
    · next h2 =>
      obtain ⟨lo, hlo⟩ := Int.eq_ofNat_of_zero_le (show 0 ≤ max px 0 by omega)
      rw [bitAt_applyColumns, getLsbD_bitMask (by omega), hlo]
      have e1 : ((lo : Int) + (y : Int) / 8 * (g.panelW : Int)).toNat = lo + y / 8 * g.panelW :=
        congrArg Prod.fst (bitAddr_nat g lo y)
      have e2 : ((y : Int) % 8).toNat = y % 8 := by omega
      rw [e1, e2]
      simp only [decide_eq_true_eq]
      constructor
      · intro c _ _ h3 h4 hp
        obtain ⟨n, rfl⟩ := Int.eq_ofNat_of_zero_le (show 0 ≤ c by omega)
        rw [bitAddr_nat] at hp
        subst hp
        rw [if_pos ⟨by simp only; omega, rfl⟩]
      · intro hne
        refine if_neg ?_
        rintro ⟨⟨h5, h6⟩, h7⟩
        refine hne ((p.1 - y / 8 * g.panelW : Nat) : Int) (by omega) (by omega) (by omega) (by omega) ?_
        rw [bitAddr_nat]
        ext
        · simp only; omega
        · exact h7

/-- PVRUN on every bit (R111, R112). -/
theorem bitAt_pvrun (px py len : Int) (p : Nat × Nat) :
    (∀ r : Int, 0 ≤ px → px < g.panelW → max py 0 ≤ r → r < min (py + len) g.panelH → p = bitAddr g (px, r) →
        bitAt (pvrun g st m px py len) p = newBit st (bitAt m p)) ∧
      ((∀ r : Int, 0 ≤ px → px < g.panelW → max py 0 ≤ r → r < min (py + len) g.panelH → p ≠ bitAddr g (px, r)) →
        bitAt (pvrun g st m px py len) p = bitAt m p) := by
  by_cases hp : p.2 < 8
  · unfold pvrun clipRun
    simp only
    split
    · next h => exact ⟨fun c h1 h2 => by omega, fun _ => rfl⟩
    · next h =>
      obtain ⟨x, rfl⟩ := Int.eq_ofNat_of_zero_le (show 0 ≤ px by omega)
      split
      · next h2 => exact ⟨fun c _ _ h3 h4 => by omega, fun _ => rfl⟩
      · next h2 =>
        obtain ⟨lo, hlo⟩ := Int.eq_ofNat_of_zero_le (show 0 ≤ max py 0 by omega)
        rw [hlo]
        have e1 : ((x : Int) + (lo : Int) / 8 * (g.panelW : Int)).toNat = x + lo / 8 * g.panelW :=
          congrArg Prod.fst (bitAddr_nat g x lo)
        rw [e1, Int.toNat_natCast, bitAt_pvrunPhases (by omega) (by omega) _ _ hp]
        constructor
        · intro r _ _ h3 h4 he
          obtain ⟨n, rfl⟩ := Int.eq_ofNat_of_zero_le (show 0 ≤ r by omega)
          rw [bitAddr_nat] at he
          exact if_pos ⟨n, by omega, by omega, he⟩
        · intro hne
          refine if_neg ?_
          rintro ⟨r, h5, h6, he⟩
          exact hne (r : Int) (by omega) (by omega) (by omega) (by omega) (by rw [bitAddr_nat]; exact he)
  · refine ⟨fun r _ _ _ _ he => ?_, fun _ => ?_⟩
    · have := bitAddr_bit_lt g (px, r)
      rw [← he] at this
      omega
    · rw [bitAt_of_ge (by omega), bitAt_of_ge (by omega)]

end Sys2Proof.Machine
end

