-- ==== Sys2Proof/Laws/State.lean ====
section
/-! SUPPORT. One lemma per field per named update of the state, each true by rfl, so that no proof unfolds an update. -/

namespace Sys2Proof.Machine

variable (s : State) (w : CommandWord)

@[simp] theorem enterReset_geometry : (enterReset s).geometry = s.geometry := rfl
@[simp] theorem enterReset_buf : (enterReset s).buf = s.buf := rfl
@[simp] theorem enterReset_rot : (enterReset s).rot = 0 := rfl
@[simp] theorem enterReset_rsp : (enterReset s).rsp = 0 := rfl
@[simp] theorem enterReset_ill : (enterReset s).ill = false := rfl
@[simp] theorem enterReset_busy : (enterReset s).busy = true := rfl
@[simp] theorem enterReset_inputs : (enterReset s).inputs = s.inputs := rfl

@[simp] theorem completeFill_geometry : (completeFill s).geometry = s.geometry := rfl
@[simp] theorem completeFill_buf : (completeFill s).buf = [] := rfl
@[simp] theorem completeFill_rot : (completeFill s).rot = s.rot := rfl
@[simp] theorem completeFill_rsp : (completeFill s).rsp = s.rsp := rfl
@[simp] theorem completeFill_ill : (completeFill s).ill = s.ill := rfl
@[simp] theorem completeFill_busy : (completeFill s).busy = false := rfl
@[simp] theorem completeFill_inputs : (completeFill s).inputs = s.inputs := rfl

@[simp] theorem flagIllegal_geometry : (flagIllegal s).geometry = s.geometry := rfl
@[simp] theorem flagIllegal_buf : (flagIllegal s).buf = s.buf := rfl
@[simp] theorem flagIllegal_rot : (flagIllegal s).rot = s.rot := rfl
@[simp] theorem flagIllegal_rsp : (flagIllegal s).rsp = s.rsp := rfl
@[simp] theorem flagIllegal_ill : (flagIllegal s).ill = true := rfl
@[simp] theorem flagIllegal_busy : (flagIllegal s).busy = s.busy := rfl
@[simp] theorem flagIllegal_inputs : (flagIllegal s).inputs = s.inputs := rfl

@[simp] theorem presentWord_geometry : (presentWord s w).geometry = s.geometry := rfl
@[simp] theorem presentWord_buf : (presentWord s w).buf = s.buf := rfl
@[simp] theorem presentWord_rot : (presentWord s w).rot = s.rot := rfl
@[simp] theorem presentWord_rsp : (presentWord s w).rsp = s.rsp := rfl
@[simp] theorem presentWord_ill : (presentWord s w).ill = s.ill := rfl
@[simp] theorem presentWord_busy : (presentWord s w).busy = false := rfl
@[simp] theorem presentWord_inputs : (presentWord s w).inputs = .word w :: s.inputs := rfl

end Sys2Proof.Machine
end

