-- ==== Sys2Proof/Laws/Step.lean ====
section
/-! SUPPORT. What a command and a step can do, said once: the inversion lemmas from which invariants are derived. -/

namespace Sys2Proof.Machine

/-- Every command answers a next state, and touches at most BUF, ROT and RSP (R150, R153, R20's table). -/
theorem exec_next (i : Instr) (s : State) :
    ∃ m rot rsp, exec i s = .next { s with buf := m, rot := rot, rsp := rsp } := by
  cases i <;> exact ⟨_, _, _, rfl⟩

/-- The same, read from an answer. -/
theorem exec_cases {i : Instr} {s t : State} (h : exec i s = .next t) :
    t.geometry = s.geometry ∧ t.ill = s.ill ∧ t.busy = s.busy ∧ t.inputs = s.inputs := by
  obtain ⟨m, rot, rsp, e⟩ := exec_next i s
  rw [e] at h
  cases h
  exact ⟨rfl, rfl, rfl, rfl⟩

/-- An accepted word runs its command, or sets ILL. -/
theorem runWord_cases {w : CommandWord} {s t : State} (h : runWord w s = .next t) :
    (∃ i, decode w = .command i ∧ exec i s = .next t) ∨ (∃ why, decode w = .illegal why) ∧ t = flagIllegal s := by
  unfold runWord at h
  split at h
  · next i hd => exact .inl ⟨i, hd, h⟩
  · next why hd => cases h; exact .inr ⟨⟨why, hd⟩, rfl⟩

/-- Everything a step can do. -/
theorem step_cases {s t : State} (h : step s = .next t) :
    (∃ rest, s.inputs = .rst :: rest ∧ t = enterReset { s with inputs := rest }) ∨
    (s.busy = true ∧ (∀ rest, s.inputs ≠ .rst :: rest) ∧ t = completeFill s) ∨
    (∃ w rest, s.busy = false ∧ s.inputs = .word w :: rest ∧ runWord w { s with inputs := rest } = .next t) ∨
    (s.busy = false ∧ s.inputs = [] ∧ t = s) := by
  unfold step nextEvent at h
  split at h
  · next s' e =>
    split at e
    · next rest hi => cases e; cases h; exact .inl ⟨rest, hi, rfl⟩
    · split at e <;> cases e
    · split at e <;> cases e
  · next s' e =>
    split at e
    · cases e
    · next w rest hi =>
      split at e
      · next hb => cases e; cases h; exact .inr (.inl ⟨hb, fun r e => (by rw [hi] at e; cases e), rfl⟩)
      · cases e
    · next hi =>
      split at e
      · next hb => cases e; cases h; exact .inr (.inl ⟨hb, fun r e => (by rw [hi] at e; cases e), rfl⟩)
      · cases e
  · next w s' e =>
    split at e
    · cases e
    · next w' rest hi =>
      split at e
      · cases e
      · next hb => cases e; exact .inr (.inr (.inl ⟨w, rest, by simpa using hb, hi, h⟩))
    · split at e <;> cases e
  · next s' e =>
    split at e
    · cases e
    · split at e <;> cases e
    · next hi =>
      split at e
      · cases e
      · next hb => cases e; cases h; exact .inr (.inr (.inr ⟨by simpa using hb, hi, rfl⟩))

/-- A ready unit runs the presented word, with whatever it holds (R18). -/
theorem step_word {s : State} {w : CommandWord} {rest : List HostInput} (hb : s.busy = false)
    (hi : s.inputs = .word w :: rest) : step s = runWord w { s with inputs := rest } := by
  unfold step nextEvent
  rw [hi]
  simp [hb]

end Sys2Proof.Machine
end

