-- ==== Sys2Proof/Tests/Slice0.lean ====
section
/-! SUPPORT. Tests with expected values from spec/ (mostly spec/95_test_vectors.md, whose names they carry), and one witness
for each statement of Certificates/Slice0/Obligations.lean that has hypotheses. -/

namespace Sys2Proof.Tests

open Sys2Proof.Machine

/-! ## Helpers -/

/-- The reset state with a buffer. -/
def withBuf (m : Memory) : State := { State.reset with buf := m }

/-- A state of the 10 by 13 panel (P = 2, N = 20), the spec's smallest example. -/
def small (m : Memory) : State := { State.reset with geometry := ⟨10, 13⟩, buf := m }

/-- A state with input presented. -/
def feed (s : State) (inputs : List HostInput) : State := { s with inputs := inputs }

/-- The next state, if there is one. -/
def after (o : Host.Outcome State Fault Refusal) : Option State :=
  match o with
  | .next t => some t
  | .fault _ => none
  | .refused _ => none

/-- The state of spec/95's section 2.1, from which the illegal words are run. -/
def marked : State := { State.reset with buf := [(5, 0xA5)], rot := 2, rsp := 0x1234 }

/-- A state in the middle of the reset fill. -/
def filling (m : Memory) : State := { State.reset with busy := true, buf := m }

/-! ## Well-formedness: each check refuses an operand just outside its field (R7, R70) -/

theorem test_wf_extremes : wellFormed (.line 32767 (-32768) (-32768) 32767 .invert) = true := by decide

theorem test_wf_setpixel_x : wellFormed (.setpixel 32768 0 .on) = false := by decide

theorem test_wf_setpixel_y : wellFormed (.setpixel 0 (-32769) .on) = false := by decide

theorem test_wf_getpixel_x : wellFormed (.getpixel (-32769) 0) = false := by decide

theorem test_wf_getpixel_y : wellFormed (.getpixel 0 32768) = false := by decide

theorem test_wf_hrun_x : wellFormed (.hrun 32768 0 0 .on) = false := by decide

theorem test_wf_hrun_y : wellFormed (.hrun 0 32768 0 .on) = false := by decide

theorem test_wf_hrun_len : wellFormed (.hrun 0 0 32768 .on) = false := by decide

theorem test_wf_vrun_x : wellFormed (.vrun (-32769) 0 0 .off) = false := by decide

theorem test_wf_vrun_y : wellFormed (.vrun 0 (-32769) 0 .off) = false := by decide

theorem test_wf_vrun_len : wellFormed (.vrun 0 0 (-32769) .off) = false := by decide

theorem test_wf_line_x0 : wellFormed (.line 32768 0 0 0 .on) = false := by decide

theorem test_wf_line_y0 : wellFormed (.line 0 32768 0 0 .on) = false := by decide

theorem test_wf_line_x1 : wellFormed (.line 0 0 (-32769) 0 .on) = false := by decide

theorem test_wf_line_y1 : wellFormed (.line 0 0 0 (-32769) .on) = false := by decide

/-! ## Decoding: the words of spec/95 section 2.1, laid out by R61's fields -/

theorem test_decode_clear : decode 0x10_0000_0000_0000_0000 = .command .clear := by decide

theorem test_decode_setrot : decode 0x20_0000_0000_0000_0003 = .command (.setrot 3) := by decide

theorem test_decode_setpixel : decode 0x38_FFFF_8000_0000_0000 = .command (.setpixel (-1) (-32768) .invert) := by decide

theorem test_decode_getpixel : decode 0x40_007F_003F_0000_0000 = .command (.getpixel 127 63) := by decide

theorem test_decode_hrun : decode 0x54_FFFD_0009_0006_0000 = .command (.hrun (-3) 9 6 .on) := by decide

theorem test_decode_vrun : decode 0x64_7FFF_FFFF_FFFF_0000 = .command (.vrun 32767 (-1) (-1) .on) := by decide

theorem test_decode_line :
    decode 0x78_7FFF_8000_8000_7FFF = .command (.line 32767 (-32768) (-32768) 32767 .invert) := by decide

theorem test_decode_getwidth : decode 0x80_0000_0000_0000_0000 = .command .getwidth := by decide

theorem test_decode_getheight : decode 0x90_0000_0000_0000_0000 = .command .getheight := by decide

/-- R61 bit by bit: OP 0111, ST 01, RSV 00, A 1, B 2, C 4, D 8. -/
theorem test_decode_line_bits :
    decode (0b0111#4 ++ 0b01#2 ++ 0b00#2 ++ 0b0000000000000001#16 ++ 0b0000000000000010#16 ++ 0b0000000000000100#16
      ++ 0b0000000000001000#16) = .command (.line 1 2 4 8 .on) := by decide

/-- The illegal words I1 to I21 of spec/95: each is refused, under the name of the condition that R67 gives it. -/
theorem test_decode_illegal :
    decode 0x00_0000_0000_0000_0000 = .illegal .reservedOperation ∧
    decode 0xFF_FFFF_FFFF_FFFF_FFFF = .illegal .reservedBits ∧
    decode 0xA0_0000_0000_0000_0000 = .illegal .reservedOperation ∧
    decode 0x3C_0005_000A_0000_0000 = .illegal .reservedState ∧
    decode 0x7C_0000_0000_0003_0003 = .illegal .reservedState ∧
    decode 0x5C_0000_0000_0005_0000 = .illegal .reservedState ∧
    decode 0x6C_0000_0000_0005_0000 = .illegal .reservedState ∧
    decode 0x35_0005_000A_0000_0000 = .illegal .reservedBits ∧
    decode 0x34_0005_000A_0001_0000 = .illegal .unusedField ∧
    decode 0x34_0005_000A_0000_0001 = .illegal .unusedField ∧
    decode 0x54_0000_0000_0005_0001 = .illegal .unusedField ∧
    decode 0x64_0000_0000_0005_8000 = .illegal .unusedField ∧
    decode 0x44_0005_000A_0000_0000 = .illegal .unusedField ∧
    decode 0x40_0005_000A_0000_0001 = .illegal .unusedField ∧
    decode 0x10_0000_0000_0000_0001 = .illegal .unusedField ∧
    decode 0x14_0000_0000_0000_0000 = .illegal .unusedField ∧
    decode 0x20_0000_0000_0000_0004 = .illegal .unusedField ∧
    decode 0x20_0001_0000_0000_0001 = .illegal .unusedField ∧
    decode 0x80_0000_0000_0000_0001 = .illegal .unusedField ∧
    decode 0x90_0000_0001_0000_0000 = .illegal .unusedField ∧
    decode 0x72_0000_0000_0003_0003 = .illegal .reservedBits := by decide

/-- A row of the opcode table reaches the decoder, and step runs it first (K2: ROT = 1). -/
theorem test_fetch_word : decodeTableWord 72 0x20_0000_0000_0000_0001 = some (.setrot 1) ∧
    (after (step (State.reset.withFetchWord 72 0x20_0000_0000_0000_0001))).map (·.rot) = some 1 := by decide

/-- R70, R71: text to word. -/
theorem test_assemble_text : assembleLine "HRUN -3, 9, 6, ON ; a run".toList = some 0x54_FFFD_0009_0006_0000 ∧
    assembleLine "DRAWLINE 0, 0, 3, 3, ON".toList = some 0x74_0000_0000_0003_0003 ∧
    assembleLine "SETPIXEL 32768, 0, ON".toList = none := by decide

/-- R72: the printed form. -/
theorem test_print_word : printWord 0x38_FFFF_8000_0000_0000 = "38_FFFF_8000_0000_0000".toList := by decide

/-! ## Reset, ports, ILL -/

/-- R24 and Z3: the read port beside N = 192 on the 96 by 16 panel. -/
theorem test_read_port :
    [0, 191, 192, 255].map (bufData { State.reset with geometry := ⟨96, 16⟩, buf := [(191, 0x80)] }) =
      [some 0x00, some 0x80, some 0x00, some 0x00] := by decide

/-- R6: P, N and AW of the three named geometries. -/
theorem test_derived_constants :
    [Geometry.mk 128 32, ⟨128, 64⟩, ⟨96, 16⟩].map (fun g => (g.pages, g.bytes, g.indexWidth)) =
      [(4, 512, 9), (8, 1024, 10), (2, 192, 8)] := by decide

/-- Z1: a reset from a used state, and what STATUS shows on the way (R24, R170). -/
theorem test_reset_enters :
    (after (step (feed { marked with ill := true } [.rst]))).map (fun t => (t.rot, t.rsp, status t)) =
      some (0, 0, 0b0001) := by decide

theorem test_reset_completes : after (step (filling [(5, 0xA5), (900, 0xFF)])) = some State.reset := by decide

/-- R153: the all-zero word changes ILL alone. -/
theorem test_illegal_word :
    after (step (feed marked [.word 0x00_0000_0000_0000_0000])) = some { marked with ill := true } := by decide

/-- R153, R24: after it a legal word runs and ILL is still 1. -/
theorem test_ill_is_sticky :
    after (step (feed { State.reset with ill := true } [.word 0x34_0000_0000_0000_0000])) =
      some { State.reset with ill := true, buf := [(0, 0x01)] } := by decide

/-! ## One step per command: at most two vectors each -/

/-- K1 and R80 on the small panel. -/
theorem test_clear :
    after (exec .clear (small [(0, 0xFF), (13, 0x04), (19, 0x10)])) = some (small []) := by decide

/-- K8: CLEAR keeps ROT and RSP. -/
theorem test_clear_keeps :
    after (exec .clear { small [(3, 0x04)] with rot := 1, rsp := 7 }) = some { small [] with rot := 1, rsp := 7 } := by decide

/-- K2: SETROT leaves BUF as it is. -/
theorem test_setrot :
    after (exec (.setrot 1) (withBuf [(133, 0x04)])) = some { withBuf [(133, 0x04)] with rot := 1 } := by decide

/-- K6. -/
theorem test_getwidth : (after (exec .getwidth { State.reset with geometry := ⟨96, 16⟩, rot := 1 })).map (·.rsp) =
    some 0x0010 := by decide

/-- K7. -/
theorem test_getheight : (after (exec .getheight { State.reset with geometry := ⟨128, 32⟩, rot := 3 })).map (·.rsp) =
    some 0x0080 := by decide

/-- P6: OFF on a full byte. -/
theorem test_setpixel_off : (after (exec (.setpixel 5 10 .off) (withBuf [(133, 0xFF)]))).map (·.buf) =
    some [(133, 0xFB)] := by decide

/-- P9: under ROT = 3 logical (10,20) is bit 5 of byte 788. -/
theorem test_setpixel_rotated :
    (after (exec (.setpixel 10 20 .on) { State.reset with rot := 3 })).map (·.buf) = some [(788, 0x20)] := by decide

/-- P10. -/
theorem test_getpixel : (after (exec (.getpixel 0 7) (withBuf [(0, 0xFF)]))).map (·.rsp) = some 0x0001 := by decide

/-- K9: GETPIXEL goes through the rotation. -/
theorem test_getpixel_rotated :
    (after (exec (.getpixel 122 53) { withBuf [(133, 0x04)] with rot := 2 })).map (·.rsp) = some 0x0001 := by decide

/-- H5: INVERT over a mixed background. -/
theorem test_hrun_invert : (after (exec (.hrun 2 3 3 .invert) (withBuf [(2, 0x08), (4, 0xFF)]))).map (·.buf) =
    some [(3, 0x08), (4, 0xF7)] := by decide

/-- RH1c: clipped under ROT = 1. -/
theorem test_hrun_rotated : (after (exec (.hrun 60 0 10 .on) { State.reset with rot := 1 })).map (·.buf) =
    some [(1023, 0xF0)] := by decide

/-- V10: INVERT through all three phases. -/
theorem test_vrun_invert :
    (after (exec (.vrun 3 5 22 .invert) (withBuf [(3, 0xFF), (131, 0x0F), (259, 0xAA), (387, 0x01)]))).map (·.buf) =
      some [(3, 0x1F), (131, 0xF0), (259, 0x55), (387, 0x06)] := by decide

/-- V13: the last page of 13 rows. -/
theorem test_vrun_last_page : (after (exec (.vrun 2 6 20 .on) (small []))).map (·.buf) =
    some [(2, 0xC0), (12, 0x1F)] := by decide

/-- L7: steep, end points exchanged, y step from the exchanged pair (spec/90_conflicts.md C2). -/
theorem test_line_steep : (after (exec (.line 2 9 0 1 .on) State.reset)).map (·.buf) =
    some [(0, 0x0E), (1, 0xF0), (130, 0x03)] := by decide

/-- L11: partly outside. -/
theorem test_line_clipped : (after (exec (.line (-3) (-2) 3 2 .on) State.reset)).map (·.buf) =
    some [(0, 0x01), (1, 0x02), (2, 0x02), (3, 0x04)] := by decide

/-! ## Witnesses: for each statement with hypotheses, concrete values that meet them together; a statement with several
clauses has one for each, at a boundary -/

theorem test_witness_reset_pulse :
    (feed marked [.rst, .word 0]).inputs = .rst :: [.word 0] ∧ ∀ rest', [HostInput.word 0] ≠ .rst :: rest' :=
  ⟨rfl, fun _ h => by cases h⟩

/-- The last byte of the buffer, and the first index beyond it. -/
theorem test_witness_read_port : State.reset.busy = false ∧ 1023 < State.reset.geometry.bytes ∧
    State.reset.geometry.bytes ≤ 1024 := by decide

theorem test_witness_unit_waits : (State.reset.busy = false ∧ State.reset.inputs = []) ∧
    (feed (filling []) [.word 5]).busy = true ∧ (feed (filling []) [.word 5]).inputs = .word 5 :: [] := by decide

/-- The two ends of every 16-bit field (R7). -/
theorem test_witness_well_formed :
    wellFormed (.setpixel (-32768) 32767 .off) = true ∧ wellFormed (.getpixel 32767 (-32768)) = true ∧
    wellFormed (.hrun (-32768) 32767 (-32768) .on) = true ∧ wellFormed (.vrun 32767 (-32768) 32767 .invert) = true ∧
    wellFormed (.line (-32768) 32767 32767 (-32768) .on) = true ∧ wellFormed (.setrot 3) = true ∧
    wellFormed .clear = true ∧ wellFormed .getwidth = true ∧ wellFormed .getheight = true := by decide

/-- For the statements about a word that decodes to a command, and about two such words. -/
theorem test_witness_decodes : decode 0x34_0005_000A_0000_0000 = .command (.setpixel 5 10 .on) ∧
    (∃ row ∈ opcodeTable, row.admits 0x34_0005_000A_0000_0000 = true) := by decide

theorem test_witness_illegal_step : (feed marked [.word 0]).busy = false ∧
    (feed marked [.word 0]).inputs = .word 0 :: [] ∧ ∃ why, decode 0 = .illegal why :=
  ⟨rfl, rfl, _, rfl⟩

/-- IllIsSticky: an answer of a command, a step with ILL = 1 and no reset, a step with a reset. -/
theorem test_witness_ill_sticky :
    (∃ t, exec .clear (small []) = .next t) ∧
    (∃ t, { marked with ill := true }.ill = true ∧ (∀ rest, { marked with ill := true }.inputs ≠ .rst :: rest) ∧
      step { marked with ill := true } = .next t) ∧
    ∃ t, (feed marked [.rst]).inputs = .rst :: [] ∧ step (feed marked [.rst]) = .next t :=
  ⟨⟨_, rfl⟩, ⟨_, rfl, fun _ h => by (cases h), rfl⟩, _, rfl, rfl⟩

theorem test_witness_step_runs : (feed State.reset [.word 0x34_0005_000A_0000_0000]).busy = false ∧
    (feed State.reset [.word 0x34_0005_000A_0000_0000]).inputs = .word 0x34_0005_000A_0000_0000 :: [] ∧
    decode 0x34_0005_000A_0000_0000 = .command (.setpixel 5 10 .on) := by decide

theorem test_witness_text : wellFormed (.setpixel (-1) (-32768) .invert) = true ∧
    assembleCommand "DRAWPIXEL" [.int (-1), .int (-32768), .state .invert] = some 0x38_FFFF_8000_0000_0000 := by decide

/-- The two ranges of CLEAR's index, where they meet (N = 20). -/
theorem test_witness_clear : 19 < (small []).geometry.bytes ∧ (small []).geometry.bytes ≤ 20 := by decide

/-- I17: the rotation is not taken modulo 4. -/
theorem test_witness_setrot_illegal : BitVec.extractLsb' 68 4 (0x20_0000_0000_0000_0004 : CommandWord) = 0x2 ∧
    BitVec.extractLsb' 2 14 (0x20_0000_0000_0000_0004 : CommandWord) ≠ 0 := by decide

/-- The largest legal geometry. -/
theorem test_witness_legal : { State.reset with geometry := ⟨32767, 32767⟩ }.geometry.Legal ∧
    (∃ t, exec .getwidth { State.reset with geometry := ⟨32767, 32767⟩ } = .next t) ∧
    ∃ t, exec .getheight { State.reset with geometry := ⟨32767, 32767⟩ } = .next t :=
  ⟨by decide, ⟨_, rfl⟩, _, rfl⟩

/-- A corner of the panel, a byte and bit of its last page, and two equal addresses. -/
theorem test_witness_layout : InPanel ⟨10, 13⟩ (9, 12) ∧ bitAddr ⟨10, 13⟩ (9, 12) = (19, 4) ∧
    (19 < (Geometry.mk 10 13).bytes ∧ 4 < 8 ∧ 8 * (19 / 10) + 4 < 13) := by decide

theorem test_witness_apply : (4 : Nat) ≠ 3 ∧ BitVec.getLsbD (0x01 : Byte) 1 = false ∧
    BitVec.getLsbD (0x01 : Byte) 0 = true := by decide

/-- The last pixel in range and the first ones out of range under ROT = 1 (P7). -/
theorem test_witness_in_range : InRange ⟨128, 64⟩ 1 63 127 ∧ ¬ InRange ⟨128, 64⟩ 1 64 0 ∧ ¬ InRange ⟨128, 64⟩ 1 0 128 ∧
    ¬ InRange ⟨128, 64⟩ 1 (-1) 0 ∧ ¬ InRange ⟨128, 64⟩ 1 0 (-1) ∧ logicalBit ⟨128, 64⟩ 1 63 127 = (896, 7) ∧
    ((896, 6) : Nat × Nat) ≠ logicalBit ⟨128, 64⟩ 1 63 127 ∧ 895 ≠ (logicalBit ⟨128, 64⟩ 1 63 127).1 := by decide

theorem test_witness_pixel_reads_back :
    InRange (small [(19, 0x10)]).geometry (small [(19, 0x10)]).rot 9 12 ∧ (small [(19, 0x10)]).buf.wf := by decide

theorem test_witness_square : (Geometry.mk 8 8).panelW = (Geometry.mk 8 8).panelH := by decide

/-- H10: row 15 of the 96 by 16 panel, its last column, and a byte outside the run. -/
theorem test_witness_row_run : (0 : Int) ≤ 15 ∧ (15 : Int) < 16 ∧ max 90 0 ≤ (95 : Int) ∧ 95 < min (90 + 100) (96 : Int) ∧
    ∀ c : Int, (0 : Int) ≤ 15 → (15 : Int) < 16 → max 90 0 ≤ c → c < min (90 + 100) (96 : Int) →
      185 ≠ (c + 15 / 8 * 96).toNat :=
  ⟨by decide, by decide, by decide, by decide, fun c _ _ h1 h2 => by omega⟩

/-- V8: column 7, rows 60 to 69, the last row of the clip, and a bit above the run. -/
theorem test_witness_column_run : (0 : Int) ≤ 7 ∧ (7 : Int) < 128 ∧ max 60 0 ≤ (63 : Int) ∧ 63 < min (60 + 10) (64 : Int) ∧
    ∀ r : Int, (0 : Int) ≤ 7 → (7 : Int) < 128 → max 60 0 ≤ r → r < min (60 + 10) (64 : Int) →
      ((903, 3) : Nat × Nat) ≠ bitAddr ⟨128, 64⟩ (7, r) :=
  ⟨by decide, by decide, by decide, by decide, fun r _ _ h1 h2 h => by
    simp only [bitAddr, Prod.mk.injEq] at h
    omega⟩

theorem test_witness_run_wf : (withBuf [(2, 0x08), (4, 0xFF)]).buf.wf := by decide

/-- HRUN −3, 9, 6: the last cell, a bit of the same byte and a byte that are not the run's. -/
theorem test_witness_hrun_cells : ((-3 : Int) ≤ 2 ∧ (2 : Int) < -3 + 6 ∧ InRange ⟨128, 64⟩ 0 2 9) ∧
    (∀ u : Int, -3 ≤ u → u < -3 + 6 → InRange ⟨128, 64⟩ 0 u 9 → ((130, 0) : Nat × Nat) ≠ logicalBit ⟨128, 64⟩ 0 u 9) ∧
    ∀ u : Int, -3 ≤ u → u < -3 + 6 → InRange ⟨128, 64⟩ 0 u 9 → 131 ≠ (logicalBit ⟨128, 64⟩ 0 u 9).1 := by
  have e (u : Int) : logicalBit ⟨128, 64⟩ 0 u 9 = ((u + 128).toNat, 1) := rfl
  refine ⟨by decide, fun u _ _ _ h => ?_, fun u _ _ _ h => ?_⟩
  · rw [e, Prod.mk.injEq] at h
    omega
  · rw [e] at h
    omega

/-- VRUN 3, 5, 22: the last cell, a bit of the same byte and a byte that are not the run's. -/
theorem test_witness_vrun_cells : ((5 : Int) ≤ 26 ∧ (26 : Int) < 5 + 22 ∧ InRange ⟨128, 64⟩ 0 3 26) ∧
    (∀ v : Int, 5 ≤ v → v < 5 + 22 → InRange ⟨128, 64⟩ 0 3 v → ((387, 3) : Nat × Nat) ≠ logicalBit ⟨128, 64⟩ 0 3 v) ∧
    ∀ v : Int, 5 ≤ v → v < 5 + 22 → InRange ⟨128, 64⟩ 0 3 v → 4 ≠ (logicalBit ⟨128, 64⟩ 0 3 v).1 := by
  have e (v : Int) : logicalBit ⟨128, 64⟩ 0 3 v = ((3 + v / 8 * 128).toNat, (v % 8).toNat) := rfl
  refine ⟨by decide, fun v _ _ _ h => ?_, fun v _ _ _ h => ?_⟩
  · rw [e, Prod.mk.injEq] at h
    omega
  · rw [e] at h
    omega

/-- Each way for a run to do nothing, at its boundary (H4, V12). -/
theorem test_witness_runs_outside : (0 : Int) ≤ 0 ∧ (-1 : Int) < 0 ∧
    (logicalHeight State.reset.geometry State.reset.rot : Int) ≤ 64 ∧ (-4 : Int) + 4 ≤ 0 ∧
    (logicalWidth State.reset.geometry State.reset.rot : Int) ≤ 128 := by decide

/-- The largest legal geometry with operands at the ends of their fields, and a LINE whose one call is routed. -/
theorem test_witness_run_arithmetic : (Geometry.mk 32767 32767).Legal ∧
    wellFormed (.hrun (-32768) 32767 (-32768) .on) = true ∧ wellFormed (.vrun 32767 (-32768) 32767 .on) = true ∧
    wellFormed (.line 5 (-32768) 5 32767 .on) = true ∧
    PrimitiveCall.vrun 5 (-32768) 65536 .on ∈ lineCalls 5 (-32768) 5 32767 .on ∧
    routedRun ⟨32767, 32767⟩ 2 (.vrun 5 (-32768) 65536 .on) = some (.column 32761 (-1) 65536) := by decide

/-- R121: both ends of the moved anchor's range are reached (W = 1 and W = 32767). -/
theorem test_moved_anchor_extremes :
    hRunRoute ⟨1, 1⟩ 2 32767 0 32767 = .row (-65533) 0 32767 ∧
    hRunRoute ⟨32767, 1⟩ 2 (-32768) 0 (-32768) = .row 98303 0 (-32768) := by decide

/-- The three cases of LINE's dispatch: L8 (a single point is vertical), L10, L2. -/
theorem test_witness_line_cases : ((7 : Int) = 7) ∧ ((9 : Int) ≠ 3 ∧ (2 : Int) = 2) ∧ ((0 : Int) ≠ 3 ∧ (0 : Int) ≠ 3) := by
  decide

/-- LINE 0, 0, 3, 3: its last cell, and a bit that is none of its cells. -/
theorem test_witness_line_cells :
    ((3 : Nat) : Int) ≤ (lineSetup 0 0 3 3 .on).dx ∧
    InRange ⟨128, 64⟩ 0 (lineCell (lineSetup 0 0 3 3 .on) 3).1 (lineCell (lineSetup 0 0 3 3 .on) 3).2 ∧
    ∀ k : Nat, (k : Int) ≤ (lineSetup 0 0 3 3 .on).dx →
      InRange ⟨128, 64⟩ 0 (lineCell (lineSetup 0 0 3 3 .on) k).1 (lineCell (lineSetup 0 0 3 3 .on) k).2 →
      ((5, 0) : Nat × Nat) ≠
          logicalBit ⟨128, 64⟩ 0 (lineCell (lineSetup 0 0 3 3 .on) k).1 (lineCell (lineSetup 0 0 3 3 .on) k).2 ∧
        5 ≠ (logicalBit ⟨128, 64⟩ 0 (lineCell (lineSetup 0 0 3 3 .on) k).1 (lineCell (lineSetup 0 0 3 3 .on) k).2).1 := by
  refine ⟨by decide, by decide, fun k hk hr => ?_⟩
  have h : k < 4 := by
    have e : (lineSetup 0 0 3 3 .on).dx = 3 := by decide
    omega
  clear hk hr
  revert k
  decide

/-- A steep and a flat line, the first and last step of each (L5, L4). -/
theorem test_witness_line_steps : (0 : Int) ≠ 2 ∧ (0 : Int) ≠ 5 ∧ absInt (5 - 0) ≥ absInt (2 - 0) ∧
    absInt (2 - 0) < absInt (5 - 0) ∧ ((5 : Nat) : Int) ≤ (lineSetup 0 0 2 5 .on).dx ∧
    ((5 : Nat) : Int) ≤ (lineSetup 0 0 5 2 .on).dx ∧ ((5 : Nat) : Int) < max (absInt (5 - 0)) (absInt (2 - 0)) + 1 ∧
    ¬ ((6 : Nat) : Int) ≤ (lineSetup 0 0 5 2 .on).dx := by decide

/-- The longest line there is, and its last step (R139). -/
theorem test_witness_line_bounds : wellFormed (.line (-32768) (-32768) 32767 32767 .on) = true ∧ (-32768 : Int) ≠ 32767 ∧
    ((65536 : Nat) : Int) ≤ (lineSetup (-32768) (-32768) 32767 32767 .on).dx + 1 := by decide

/-- The invariant in a state that is not the reset state, with bit 4 of the last page set and the step it takes. -/
theorem test_witness_invariant : Inv (small [(19, 0x10)]) ∧ ∃ t, step (small [(19, 0x10)]) = .next t :=
  ⟨by decide, _, rfl⟩

/-- The first bit of the last page that is no pixel (P13). -/
theorem test_witness_unused_bits : Inv (small [(19, 0x10)]) ∧ (small [(19, 0x10)]).geometry.panelH % 8 ≠ 0 ∧
    9 < (small [(19, 0x10)]).geometry.panelW ∧ 5 < 8 ∧ (small [(19, 0x10)]).geometry.panelH % 8 ≤ 5 := by decide

/-- SETROT 3 changes ROT from 0, and so does a reset from 2. -/
theorem test_witness_rot_changes :
    (∃ t, step (feed State.reset [.word 0x20_0000_0000_0000_0003]) = .next t ∧ t.rot ≠ State.reset.rot) ∧
    ∃ t, step (feed marked [.rst]) = .next t ∧ t.rot ≠ marked.rot :=
  ⟨⟨_, rfl, by decide⟩, _, rfl, by decide⟩

theorem test_witness_rsp_changes :
    (∃ t, step (feed State.reset [.word 0x80_0000_0000_0000_0000]) = .next t ∧ t.rsp ≠ State.reset.rsp) ∧
    ∃ t, step (feed marked [.rst]) = .next t ∧ t.rsp ≠ marked.rsp :=
  ⟨⟨_, rfl, by decide⟩, _, rfl, by decide⟩

theorem test_witness_buf_changes :
    (∃ t, step (feed State.reset [.word 0x34_0000_0000_0000_0000]) = .next t ∧ t.buf ≠ State.reset.buf) ∧
    ∃ t, step (filling [(5, 0xA5)]) = .next t ∧ t.buf ≠ (filling [(5, 0xA5)]).buf :=
  ⟨⟨_, rfl, by decide⟩, _, rfl, by decide⟩

theorem test_witness_sequence :
    (feed State.reset [.word 0x20_0000_0000_0000_0001, .word 0, .rst]).busy = false ∧
    (feed State.reset [.word 0x20_0000_0000_0000_0001, .word 0, .rst]).inputs =
      [0x20_0000_0000_0000_0001, 0].map HostInput.word ++ [.rst] := by decide

/-- Two states that differ in BUF, RSP and ILL, before the same word. -/
theorem test_witness_never_steers :
    (feed (withBuf [(3, 0x01)]) [.word 0x40_0003_0000_0000_0000]).geometry =
      (feed { State.reset with rsp := 7, ill := true } [.word 0x40_0003_0000_0000_0000]).geometry ∧
    (∃ t, step (feed (withBuf [(3, 0x01)]) [.word 0x40_0003_0000_0000_0000]) = .next t) ∧
    ∃ t', step (feed { State.reset with rsp := 7, ill := true } [.word 0x40_0003_0000_0000_0000]) = .next t' :=
  ⟨rfl, ⟨_, rfl⟩, _, rfl⟩

end Sys2Proof.Tests
end

section
/-! What a step does with the word it accepts, and what no step changes (spec/00_scope.md R5, R18). -/

namespace Sys2Proof.Machine

/-- The arm of `runWord` for a word that decodes (R69). -/
theorem runWord_of_command {w : CommandWord} {i : Instr} (hd : decode w = .command i) (s : State) :
    runWord w s = exec i s := by
  simp only [runWord, hd]

/-- An accepted word, legal or not, touches neither the geometry nor BUSY nor what the host still has to present. -/
theorem runWord_frame {w : CommandWord} {s t : State} (h : runWord w s = .next t) :
    t.geometry = s.geometry ∧ t.busy = s.busy ∧ t.inputs = s.inputs := by
  rcases runWord_cases h with ⟨i, -, he⟩ | ⟨-, rfl⟩
  · obtain ⟨hgeo, -, hbusy, hin⟩ := exec_cases he
    exact ⟨hgeo, hbusy, hin⟩
  · simp

/-- Settles O12: `step_word` says that the ready unit runs the word, `runWord_of_command` that this is its command. -/
theorem stepRunsAcceptedCommand : Obligations.StepRunsAcceptedCommand := by
  intro s w rest i hbusy hin hd
  rw [step_word hbusy hin, runWord_of_command hd]

/-- Settles O53, by the four things a step can do: a reset pulse and an accepted word take the first input away, the end
of the fill and waiting take none. -/
theorem geometryIsFixed : Obligations.GeometryIsFixed := by
  intro s t h
  rcases step_cases h with ⟨rest, hin, rfl⟩ | ⟨-, -, rfl⟩ | ⟨w, rest, -, hin, hrun⟩ | ⟨-, -, rfl⟩
  case inl => simp [hin]
  case inr.inl => simp
  case inr.inr.inl =>
    obtain ⟨hgeo, -, hrest⟩ := runWord_frame hrun
    exact ⟨hgeo, .inr (by rw [hrest, hin, List.tail_cons])⟩
  case inr.inr.inr => exact ⟨rfl, .inl rfl⟩

end Sys2Proof.Machine
end

section
/-! Where a drawing command can set a bit: on the panel and nowhere else (spec/10_state.md R33, spec/20_memory.md R41,
R43, R49). -/

namespace Sys2Proof.Machine

/-- The buffer bit `(idx, bit)` is a pixel of the panel: the byte is one of the N, the row one of the H (R43, R49). -/
def PanelBit (g : Geometry) (p : Nat × Nat) : Prop :=
  p.1 < g.bytes ∧ 8 * (p.1 / g.panelW) + p.2 < g.panelH

variable {g : Geometry} {rot : BitVec 2} {st : PixelState} {m : Memory}

/-- The pixels of the panel by column and page: the index is `x + page * W` (R41). -/
theorem panelBit_iff {x page k : Nat} (hx : x < g.panelW) :
    PanelBit g (x + page * g.panelW, k) ↔ page < g.pages ∧ 8 * page + k < g.panelH := by
  have hpage : (x + page * g.panelW) / g.panelW = page := by
    rw [Nat.add_mul_div_right _ _ (by omega), Nat.div_eq_of_lt hx, Nat.zero_add]
  have hbytes : x + page * g.panelW < g.bytes ↔ page < g.pages := by
    rw [Geometry.bytes, Nat.mul_comm g.panelW, ← Nat.div_lt_iff_lt_mul (by omega), hpage]
  simp only [PanelBit, hbytes, hpage]

/-- The bit address of a physical coordinate inside the panel is a pixel of the panel (R41, R94). -/
theorem panelBit_bitAddr {p : Int × Int} (h : InPanel g p) : PanelBit g (bitAddr g p) := by
  obtain ⟨px, py⟩ := p
  obtain ⟨hx0, hxW, hy0, hyH⟩ := h
  lift px to Nat using hx0
  lift py to Nat using hy0
  have hx : px < g.panelW := by simpa using hxW
  have hy : py < g.panelH := by simpa using hyH
  rw [bitAddr_nat, panelBit_iff hx, Geometry.pages]
  omega

/-- The rotation takes a logical coordinate in range into the panel (R93). -/
theorem inPanel_xform {x y : Int} (h : InRange g rot x y) : InPanel g (xform g rot x y) := by
  rcases rot_cases rot with rfl | rfl | rfl | rfl <;> simp [InRange, InPanel] at h ⊢ <;> omega

/-- A canonical buffer is inside the panel when every bit that is set is a pixel: a byte that is listed is not blank, so
it has a bit that is set. -/
theorem bufInPanel_iff (hm : m.wf) : BufInPanel g m ↔ ∀ p, bitAt m p = true → PanelBit g p := by
  constructor
  · rintro h ⟨i, k⟩ hbit
    have hk : k < 8 := by
      by_contra hk
      rw [bitAt_of_ge (Nat.le_of_not_lt hk)] at hbit
      cases hbit
    have hread : m.read i ≠ 0 := by
      intro h0
      simp [bitAt, h0] at hbit
    obtain ⟨hi, hrow⟩ := h _ (mem_of_read hread)
    exact ⟨hi, hrow k hk hbit⟩
  · intro h c hc
    have hbits : ∀ k, c.2.getLsbD k = true → PanelBit g (c.1, k) := fun k hk =>
      h (c.1, k) (by rwa [bitAt, read_of_mem hm hc])
    refine ⟨?_, fun k _ hk => (hbits k hk).2⟩
    by_contra hi
    refine hm.2 c hc (BitVec.eq_of_getLsbD_eq fun k _ => ?_)
    have hclear : c.2.getLsbD k = false := by
      by_contra hk
      exact hi (hbits k (by simpa using hk)).1
    simp [hclear, Memory.blank]

/-! No drawing primitive changes a bit that is no pixel of the panel. -/

theorem bitAt_setPixelLogical_of_not_panelBit {p : Nat × Nat} (hp : ¬ PanelBit g p) (x y : Int) :
    bitAt (setPixelLogical g rot st m x y) p = bitAt m p := by
  rw [bitAt_setPixelLogical, if_neg]
  rintro ⟨hin, rfl⟩
  exact hp (panelBit_bitAddr (inPanel_xform hin))

theorem bitAt_phrun_of_not_panelBit {p : Nat × Nat} (hp : ¬ PanelBit g p) (px py len : Int) :
    bitAt (phrun g st m px py len) p = bitAt m p := by
  refine (bitAt_phrun px py len p).2 fun c hy0 hyH hlo hhi he => hp ?_
  rw [he]
  exact panelBit_bitAddr ⟨by omega, by omega, hy0, hyH⟩

theorem bitAt_pvrun_of_not_panelBit {p : Nat × Nat} (hp : ¬ PanelBit g p) (px py len : Int) :
    bitAt (pvrun g st m px py len) p = bitAt m p := by
  refine (bitAt_pvrun px py len p).2 fun r hx0 hxW hlo hhi he => hp ?_
  rw [he]
  exact panelBit_bitAddr ⟨hx0, hxW, by omega, by omega⟩

theorem bitAt_performRun_of_not_panelBit {p : Nat × Nat} (hp : ¬ PanelBit g p) (r : PhysicalRun) :
    bitAt (performRun g st m r) p = bitAt m p := by
  cases r with
  | row px py len => exact bitAt_phrun_of_not_panelBit hp px py len
  | column px py len => exact bitAt_pvrun_of_not_panelBit hp px py len

theorem bitAt_performCall_of_not_panelBit {p : Nat × Nat} (hp : ¬ PanelBit g p) (c : PrimitiveCall) :
    bitAt (performCall g rot m c) p = bitAt m p := by
  cases c with
  | pixel x y st => exact bitAt_setPixelLogical_of_not_panelBit hp x y
  | hrun x y len st => exact bitAt_performRun_of_not_panelBit hp _
  | vrun x y len st => exact bitAt_performRun_of_not_panelBit hp _

theorem bitAt_performCalls_of_not_panelBit {p : Nat × Nat} (hp : ¬ PanelBit g p) (calls : List PrimitiveCall) :
    bitAt (performCalls g rot calls m) p = bitAt m p := by
  induction calls generalizing m with
  | nil => rfl
  | cons c rest ih => exact ih.trans (bitAt_performCall_of_not_panelBit hp c)

/-- CLEAR's stores set no bit (R80). -/
theorem bitAt_of_bitAt_clearBytes {count idx : Nat} {p : Nat × Nat} (h : bitAt (clearBytes count idx m) p = true) :
    bitAt m p = true := by
  unfold bitAt at h ⊢
  rw [read_clearBytes] at h
  split at h
  · simp at h
  · exact h

end Sys2Proof.Machine
end

section
/-! What each command does to BUF, ROT and RSP, and what a step can do in those terms (spec/10_state.md R20 to R23). -/

namespace Sys2Proof.Machine

variable {i : Instr} {s t : State}

/-- SETROT alone writes ROT, and it writes nothing else (R22, R81). -/
theorem exec_rot_cases (h : exec i s = .next t) : t.rot = s.rot ∨ ∃ r, i = .setrot r ∧ t = { s with rot := r } := by
  cases i with
  | setrot r => cases h; exact .inr ⟨r, rfl, rfl⟩
  | _ => cases h; exact .inl rfl

/-- GETPIXEL, GETWIDTH and GETHEIGHT alone write RSP (R23). -/
theorem exec_rsp_cases (h : exec i s = .next t) :
    t.rsp = s.rsp ∨ (∃ x y, i = .getpixel x y) ∨ i = .getwidth ∨ i = .getheight := by
  cases i with
  | getpixel x y => exact .inr (.inl ⟨x, y, rfl⟩)
  | getwidth => exact .inr (.inr (.inl rfl))
  | getheight => exact .inr (.inr (.inr rfl))
  | _ => cases h; exact .inl rfl

/-- CLEAR, SETPIXEL, HRUN, VRUN and LINE alone write BUF (R21). -/
theorem exec_buf_cases (h : exec i s = .next t) :
    t.buf = s.buf ∨ i = .clear ∨ (∃ x y st, i = .setpixel x y st) ∨ (∃ x y len st, i = .hrun x y len st) ∨
      (∃ x y len st, i = .vrun x y len st) ∨ ∃ x0 y0 x1 y1 st, i = .line x0 y0 x1 y1 st := by
  cases i with
  | clear => exact .inr (.inl rfl)
  | setpixel x y st => exact .inr (.inr (.inl ⟨x, y, st, rfl⟩))
  | hrun x y len st => exact .inr (.inr (.inr (.inl ⟨x, y, len, st, rfl⟩)))
  | vrun x y len st => exact .inr (.inr (.inr (.inr (.inl ⟨x, y, len, st, rfl⟩))))
  | line x0 y0 x1 y1 st => exact .inr (.inr (.inr (.inr (.inr ⟨x0, y0, x1, y1, st, rfl⟩))))
  | _ => cases h; exact .inl rfl

/-- GETPIXEL's response is a bit, zero-extended (R99). -/
theorem exec_getpixel_rsp {x y : Int} (h : exec (.getpixel x y) s = .next t) : t.rsp = 0x0000 ∨ t.rsp = 0x0001 := by
  cases h
  cases readPixelLogical s.geometry s.rot s.buf x y with
  | false => exact .inl rfl
  | true => exact .inr rfl

/-- Every command keeps the canonical form of the buffer. -/
theorem wf_exec (hm : s.buf.wf) (h : exec i s = .next t) : t.buf.wf := by
  cases i with
  | clear => cases h; exact wf_clearBytes hm _ _
  | setpixel x y st => cases h; exact wf_setPixelLogical hm x y
  | hrun x y len st => cases h; exact wf_hRunLogical hm x y len
  | vrun x y len st => cases h; exact wf_vRunLogical hm x y len
  | line x0 y0 x1 y1 st => cases h; exact wf_performCalls _ hm
  | _ => cases h; exact hm

/-- No command sets a bit that is no pixel of the panel (R33). -/
theorem bitAt_of_bitAt_exec {p : Nat × Nat} (hp : ¬ PanelBit s.geometry p) (h : exec i s = .next t)
    (hbit : bitAt t.buf p = true) : bitAt s.buf p = true := by
  cases i with
  | clear => cases h; exact bitAt_of_bitAt_clearBytes hbit
  | setpixel x y st => cases h; exact (bitAt_setPixelLogical_of_not_panelBit hp x y).symm.trans hbit
  | hrun x y len st => cases h; exact (bitAt_performRun_of_not_panelBit hp _).symm.trans hbit
  | vrun x y len st => cases h; exact (bitAt_performRun_of_not_panelBit hp _).symm.trans hbit
  | line x0 y0 x1 y1 st => cases h; exact (bitAt_performCalls_of_not_panelBit hp _).symm.trans hbit
  | _ => cases h; exact hbit

/-- Every command keeps a canonical buffer inside the panel (R33, R49). -/
theorem bufInPanel_exec (hm : s.buf.wf) (hin : BufInPanel s.geometry s.buf) (h : exec i s = .next t) :
    BufInPanel s.geometry t.buf := by
  refine (bufInPanel_iff (wf_exec hm h)).2 fun p hbit => ?_
  by_contra hp
  exact hp ((bufInPanel_iff hm).1 hin p (bitAt_of_bitAt_exec hp h hbit))

/-- What a step can do, with the accepted word decoded: a reset pulse, the end of the fill, a command, or nothing but ILL
and the inputs (an illegal word, or no word at all). -/
theorem step_cases_exec (h : step s = .next t) :
    (∃ rest, s.inputs = .rst :: rest ∧ t = enterReset { s with inputs := rest }) ∨
    (s.busy = true ∧ t = completeFill s) ∨
    (∃ w rest i, s.busy = false ∧ s.inputs = .word w :: rest ∧ decode w = .command i ∧
      exec i { s with inputs := rest } = .next t) ∨
    (s.busy = false ∧ ∃ ill inputs, t = { s with ill := ill, inputs := inputs }) := by
  rcases step_cases h with hrst | ⟨hbusy, -, ht⟩ | ⟨w, rest, hbusy, hin, hrun⟩ | ⟨hbusy, -, ht⟩
  case inl => exact .inl hrst
  case inr.inl => exact .inr (.inl ⟨hbusy, ht⟩)
  case inr.inr.inl =>
    rcases runWord_cases hrun with ⟨i, hd, he⟩ | ⟨-, ht⟩
    · exact .inr (.inr (.inl ⟨w, rest, i, hbusy, hin, hd, he⟩))
    · exact .inr (.inr (.inr ⟨hbusy, true, rest, ht⟩))
  case inr.inr.inr => exact .inr (.inr (.inr ⟨hbusy, s.ill, s.inputs, ht⟩))

end Sys2Proof.Machine
end

section
/-! The invariant, and who may change ROT, RSP and BUF (spec/10_state.md R20 to R24, R32, R33). -/

namespace Sys2Proof.Machine

/-- A state that is not busy meets the invariant by its geometry and its buffer alone. -/
theorem inv_of_not_busy {s : State} (hbusy : s.busy = false) (hgeo : s.geometry.Legal) (hm : s.buf.wf)
    (hin : BufInPanel s.geometry s.buf) : Inv s :=
  ⟨hgeo, hm, hin, fun hb => absurd hb (by simp [hbusy])⟩

theorem bufInPanel_nil (g : Geometry) : BufInPanel g [] := fun _ hc => absurd hc List.not_mem_nil

/-- A command that an idle unit runs keeps the invariant. -/
theorem inv_exec {i : Instr} {s t : State} (hbusy : s.busy = false) (hs : Inv s) (h : exec i s = .next t) : Inv t := by
  obtain ⟨hgeo, hm, hin, -⟩ := hs
  obtain ⟨htg, -, htb, -⟩ := exec_cases h
  refine inv_of_not_busy (htb.trans hbusy) (htg ▸ hgeo) (wf_exec hm h) ?_
  rw [htg]
  exact bufInPanel_exec hm hin h

/-- Settles O50: the pulse sets the registers, the fill empties the buffer, and a command keeps its bits on the panel
(`inv_exec`). -/
theorem stepKeepsInvariant : Obligations.StepKeepsInvariant := by
  intro s t hs h
  have ⟨hgeo, hm, hin, _⟩ := hs
  rcases step_cases_exec h with ⟨rest, -, rfl⟩ | ⟨-, rfl⟩ | ⟨w, rest, i, hbusy, -, -, he⟩ | ⟨hbusy, ill, inputs, rfl⟩
  case inl => exact ⟨hgeo, hm, hin, fun _ => ⟨rfl, rfl, rfl⟩⟩
  case inr.inl => exact inv_of_not_busy rfl hgeo wf_nil (bufInPanel_nil _)
  case inr.inr.inl => exact inv_exec (s := { s with inputs := rest }) hbusy hs he
  case inr.inr.inr => exact inv_of_not_busy hbusy hgeo hm hin

/-- Settles O51: an empty buffer is canonical and inside every panel. -/
theorem resetMeetsInvariant : Obligations.ResetMeetsInvariant := by
  have hreset : ∀ g : Geometry, g.Legal → Inv { State.reset with geometry := g } := fun g hg =>
    inv_of_not_busy rfl hg wf_nil (bufInPanel_nil g)
  exact ⟨hreset Geometry.standard (by decide), hreset⟩

/-- Settles O52: a bit that is set belongs to a pixel row, and the last page's rows from H mod 8 on are none. -/
theorem unusedBitsAreZero : Obligations.UnusedBitsAreZero := by
  rintro s ⟨-, hm, hin, -⟩ hH x hx k _ hk
  by_contra hbit
  obtain ⟨hpage, hrow⟩ := (panelBit_iff hx).1 ((bufInPanel_iff hm).1 hin _ (by simpa using hbit))
  rw [Geometry.pages] at hpage hrow
  omega

/-- Settles O54: of the commands only SETROT writes ROT (`exec_rot_cases`), and beside commands only the pulse does. -/
theorem rotChangesBySetrotOrReset : Obligations.RotChangesBySetrotOrReset := by
  intro s t h hne
  rcases step_cases_exec h with ⟨rest, hin, rfl⟩ | ⟨-, rfl⟩ | ⟨w, rest, i, hbusy, hin, hd, he⟩ | ⟨-, _, _, rfl⟩
  case inl => exact .inl ⟨rest, hin, rfl⟩
  case inr.inl => exact absurd rfl hne
  case inr.inr.inl =>
    rcases exec_rot_cases he with hrot | ⟨r, rfl, rfl⟩
    · exact absurd hrot hne
    · exact .inr ⟨w, rest, r, hbusy, hin, hd, rfl, rfl⟩
  case inr.inr.inr => exact absurd rfl hne

/-- Settles O55: of the commands only the three that respond write RSP (`exec_rsp_cases`), and beside commands only the
pulse does. -/
theorem rspChangesByResponse : Obligations.RspChangesByResponse := by
  refine ⟨?_, ?_, fun _ => rfl⟩
  · intro i s t h
    cases i with
    | getpixel x y => exact exec_getpixel_rsp h
    | _ => cases h; rfl
  · intro s t h hne
    rcases step_cases_exec h with ⟨rest, hin, -⟩ | ⟨-, rfl⟩ | ⟨w, rest, i, hbusy, hin, hd, he⟩ | ⟨-, _, _, rfl⟩
    case inl => exact .inl ⟨rest, hin⟩
    case inr.inl => exact absurd rfl hne
    case inr.inr.inl => exact .inr ⟨w, rest, i, hbusy, hin, hd, (exec_rsp_cases he).resolve_left hne⟩
    case inr.inr.inr => exact absurd rfl hne

/-- Settles O56: of the commands only the five that draw write BUF (`exec_buf_cases`), and beside commands only the end
of the fill does. -/
theorem bufChangesByDrawing : Obligations.BufChangesByDrawing := by
  intro s t h hne
  rcases step_cases_exec h with ⟨rest, -, rfl⟩ | ⟨hbusy, rfl⟩ | ⟨w, rest, i, hbusy, hin, hd, he⟩ | ⟨-, _, _, rfl⟩
  case inl => exact absurd rfl hne
  case inr.inl => exact .inl ⟨hbusy, rfl⟩
  case inr.inr.inl => exact .inr ⟨w, rest, i, hbusy, hin, hd, (exec_buf_cases he).resolve_left hne⟩
  case inr.inr.inr => exact absurd rfl hne

/-- Settles O1: an unlisted byte reads as 0x00, and ROT = 0 is the unrotated panel. -/
theorem resetLeavesZeros : Obligations.ResetLeavesZeros := fun g =>
  ⟨fun _ => read_nil, rfl, rfl, rfl, rfl, logicalWidth_zero g, logicalHeight_zero g⟩

/-- The fields of the status port (R24). -/
theorem status_fields (s : State) :
    (status s).getLsbD 0 = s.busy ∧ (status s).getLsbD 1 = s.ill ∧ (status s).extractLsb' 2 2 = s.rot := by
  have hfields : ∀ (rot : BitVec 2) (ill busy : Bool), let port := rot ++ BitVec.ofBool ill ++ BitVec.ofBool busy
      port.getLsbD 0 = busy ∧ port.getLsbD 1 = ill ∧ port.extractLsb' 2 2 = rot := by decide
  exact hfields s.rot s.ill s.busy

/-- Settles O3: the fields of the port, and its value once the registers are known. -/
theorem statusPortShowsFlags : Obligations.StatusPortShowsFlags := by
  refine ⟨fun s => ?_, by decide, fun s => ?_⟩
  · obtain ⟨hbusy, hill, hrot⟩ := status_fields s
    exact ⟨hbusy, hill, hrot, by rw [hbusy, cmdReady], rfl⟩
  · simp [status]

end Sys2Proof.Machine
end

section
/-! The page layout and its inverse on the panel's pixels (spec/20_memory.md R41, R43, R49; spec/41_pixel.md R94). -/

namespace Sys2Proof.Machine

/-- The physical coordinate of the buffer bit `(idx, bit)`: column `idx mod W`, row `8 * (idx div W) + bit` (R43). -/
def addrPixel (g : Geometry) (a : Nat × Nat) : Int × Int :=
  (((a.1 % g.panelW : Nat) : Int), ((8 * (a.1 / g.panelW) + a.2 : Nat) : Int))

variable {g : Geometry}

/-- The two components of a bit address as integers, for a coordinate that is not negative (R41). -/
theorem bitAddr_cast {px py : Int} (hx : 0 ≤ px) (hy : 0 ≤ py) :
    ((bitAddr g (px, py)).1 : Int) = px + py / 8 * (g.panelW : Int) ∧ ((bitAddr g (px, py)).2 : Int) = py % 8 := by
  lift px to Nat using hx
  lift py to Nat using hy
  rw [bitAddr_nat]
  exact ⟨by push_cast; rfl, by push_cast; rfl⟩

/-- The pixel of a panel coordinate's address is that coordinate. -/
theorem addrPixel_bitAddr {p : Int × Int} (h : InPanel g p) : addrPixel g (bitAddr g p) = p := by
  obtain ⟨px, py⟩ := p
  obtain ⟨hx0, hxW, hy0, -⟩ := h
  lift px to Nat using hx0
  lift py to Nat using hy0
  have hx : px < g.panelW := by simpa using hxW
  have hcol : (px + py / 8 * g.panelW) % g.panelW = px := by
    rw [Nat.add_mul_mod_self_right, Nat.mod_eq_of_lt hx]
  have hpage : (px + py / 8 * g.panelW) / g.panelW = py / 8 := by
    rw [Nat.add_mul_div_right _ _ (by omega), Nat.div_eq_of_lt hx, Nat.zero_add]
  rw [bitAddr_nat]
  simp only [addrPixel, hcol, hpage, Nat.div_add_mod]

/-- The address of the pixel of a buffer bit is that bit. -/
theorem bitAddr_addrPixel {i k : Nat} (hk : k < 8) : bitAddr g (addrPixel g (i, k)) = (i, k) := by
  have hpage : (8 * (i / g.panelW) + k) / 8 = i / g.panelW := by omega
  have hbit : (8 * (i / g.panelW) + k) % 8 = k := by omega
  simp only [addrPixel]
  rw [bitAddr_nat, hpage, hbit, Nat.mod_add_div']

/-- A buffer bit that is a pixel of the panel has its coordinate on the panel. -/
theorem inPanel_addrPixel {a : Nat × Nat} (h : PanelBit g a) : InPanel g (addrPixel g a) := by
  obtain ⟨hidx, hrow⟩ := h
  have hW : 0 < g.panelW := by
    by_contra hW
    simp [Geometry.bytes, Nat.eq_zero_of_not_pos hW] at hidx
  have hcol : a.1 % g.panelW < g.panelW := Nat.mod_lt _ hW
  exact ⟨Int.natCast_nonneg _, Int.ofNat_lt.2 hcol, Int.natCast_nonneg _, Int.ofNat_lt.2 hrow⟩

/-- Settles O20: `addrPixel` is the inverse of the layout on both sides, so the layout is one-to-one. -/
theorem pageLayoutAndInverse : Obligations.PageLayoutAndInverse := by
  refine ⟨fun g px py h => ?_, fun g i k hi hk hrow => ?_, fun g p p' h h' heq => ?_⟩
  · obtain ⟨hidx, hbit⟩ := bitAddr_cast (g := g) h.1 h.2.2.1
    exact ⟨hidx, hbit, (panelBit_bitAddr h).1, bitAddr_bit_lt g _⟩
  · exact ⟨inPanel_addrPixel (a := (i, k)) ⟨hi, hrow⟩, bitAddr_addrPixel hk⟩
  · rw [← addrPixel_bitAddr h, heq, addrPixel_bitAddr h']

end Sys2Proof.Machine
end

section
/-! The effect of a command sequence (spec/20_memory.md R52; spec/00_scope.md R15, R17). -/

namespace Sys2Proof.Machine

/-- An accepted word has its big-step effect whatever the host still has to present, which stays presented. -/
theorem runWord_withInputs (w : CommandWord) (s : State) (rest : List HostInput) :
    runWord w { s with inputs := rest } = .next { wordEffect s w with inputs := rest } := by
  unfold runWord wordEffect
  cases decode w with
  | command i => cases i <;> rfl
  | illegal why => rfl

theorem wordEffect_busy (s : State) (w : CommandWord) : (wordEffect s w).busy = s.busy := by
  obtain ⟨-, hbusy, -⟩ := runWord_frame (runWord_withInputs w s [])
  exact hbusy

/-- A ready unit's step is the big step of the word presented. -/
theorem step_word_next {s : State} (w : CommandWord) (rest : List HostInput) (hbusy : s.busy = false) :
    step { s with inputs := .word w :: rest } = .next { wordEffect s w with inputs := rest } := by
  refine (step_word ?_ rfl).trans (runWord_withInputs w s rest)
  exact hbusy

/-- A run whose first step answers a next state goes on from there. -/
theorem run_succ_of_step {M : Host.Core} {s t : M.State} (h : M.step s = .next t) (k : Nat) :
    M.run (k + 1) s = M.run k t := by
  simp only [Host.Core.run, h]

/-- A ready unit turns the words presented first into the composition of their effects, and keeps the rest. -/
theorem run_words (ws : List CommandWord) (s : State) (rest : List HostInput) (hbusy : s.busy = false) :
    Host.Core.run core ws.length { s with inputs := ws.map HostInput.word ++ rest } =
      .next { ws.foldl wordEffect s with inputs := rest } := by
  induction ws generalizing s with
  | nil => rfl
  | cons w ws ih =>
    have hstep : core.step { s with inputs := (w :: ws).map HostInput.word ++ rest } =
        .next { wordEffect s w with inputs := ws.map HostInput.word ++ rest } := step_word_next w _ hbusy
    have hrest := ih (wordEffect s w) ((wordEffect_busy s w).trans hbusy)
    exact (run_succ_of_step hstep ws.length).trans hrest

/-- Settles O57, by induction on the words (`run_words`). -/
theorem sequenceComposesBigSteps : Obligations.SequenceComposesBigSteps := by
  intro ws s rest hbusy hin
  have hrun := run_words ws s rest hbusy
  rwa [← hin] at hrun

end Sys2Proof.Machine
end

section
/-! No byte of BUF, no response and no ILL decides what comes next (spec/20_memory.md R55; spec/40_config.md R85). -/

namespace Sys2Proof.Machine

/-- Two states that may differ in BUF, RSP and ILL alone. -/
structure SameControl (s s' : State) : Prop where
  geometry : s.geometry = s'.geometry
  rot : s.rot = s'.rot
  busy : s.busy = s'.busy
  inputs : s.inputs = s'.inputs

variable {s s' t t' : State}

/-- The same thing happens next in both, and the same input is consumed (R171, R172, R175). -/
theorem nextEvent_sameControl (h : SameControl s s') :
    ∃ e u u', nextEvent s = (e, u) ∧ nextEvent s' = (e, u') ∧ SameControl u u' := by
  have ⟨hgeo, hrot, hbusy, hin⟩ := h
  unfold nextEvent
  rw [← hin, ← hbusy]
  split
  · exact ⟨_, _, _, rfl, rfl, hgeo, hrot, rfl, rfl⟩
  · split
    · exact ⟨_, _, _, rfl, rfl, h⟩
    · exact ⟨_, _, _, rfl, rfl, hgeo, hrot, rfl, rfl⟩
  · exact ⟨_, _, _, rfl, rfl, h⟩

/-- The arm of `runWord` for a word that does not decode (R69, R153). -/
theorem runWord_of_illegal {w : CommandWord} {why : IllegalReason} (hd : decode w = .illegal why) (s : State) :
    runWord w s = .next (flagIllegal s) := by
  simp only [runWord, hd]

/-- The rotation that a command leaves is that of its operand, or the old one. -/
theorem exec_rot_congr {i : Instr} (hrot : s.rot = s'.rot) (h : exec i s = .next t) (h' : exec i s' = .next t') :
    t.rot = t'.rot := by
  cases i with
  | setrot r => cases h; cases h'; rfl
  | _ => cases h; cases h'; exact hrot

/-- An accepted word, legal or not, keeps the agreement. -/
theorem runWord_sameControl {w : CommandWord} (hs : SameControl s s') (h : runWord w s = .next t)
    (h' : runWord w s' = .next t') : SameControl t t' := by
  obtain ⟨hgeo, hbusy, hin⟩ := runWord_frame h
  obtain ⟨hgeo', hbusy', hin'⟩ := runWord_frame h'
  refine ⟨by rw [hgeo, hgeo', hs.geometry], ?_, by rw [hbusy, hbusy', hs.busy], by rw [hin, hin', hs.inputs]⟩
  rcases runWord_cases h with ⟨i, hd, he⟩ | ⟨⟨why, hd⟩, rfl⟩
  · exact exec_rot_congr hs.rot he ((runWord_of_command hd s').symm.trans h')
  · cases (runWord_of_illegal hd s').symm.trans h'
    exact hs.rot

/-- Every step keeps the agreement. -/
theorem step_sameControl (hs : SameControl s s') (h : step s = .next t) (h' : step s' = .next t') :
    SameControl t t' := by
  obtain ⟨e, u, u', he, he', hu⟩ := nextEvent_sameControl hs
  unfold step at h h'
  rw [he] at h
  rw [he'] at h'
  cases e with
  | resetAsserted => cases h; cases h'; exact ⟨hu.geometry, rfl, rfl, hu.inputs⟩
  | fillCompletes => cases h; cases h'; exact ⟨hu.geometry, hu.rot, rfl, hu.inputs⟩
  | accepted w => exact runWord_sameControl hu h h'
  | idle => cases h; cases h'; exact hu

/-- Settles O58: the two steps are about the same event (`nextEvent_sameControl`), and no event looks at BUF, RSP or ILL
to set ROT, BUSY or the inputs (`step_sameControl`). -/
theorem bufferNeverSteersCommands : Obligations.BufferNeverSteersCommands := by
  intro s s' t t' hgeo hrot hbusy hin h h'
  obtain ⟨htgeo, htrot, htbusy, htin⟩ := step_sameControl ⟨hgeo, hrot, hbusy, hin⟩ h h'
  exact ⟨htgeo, htrot, htbusy, htin⟩

end Sys2Proof.Machine
end

section
/-! The read port and masked writes in pairs (spec/20_memory.md R48, R50; spec/00_scope.md R6). -/

namespace Sys2Proof.Machine

/-- `buf_addr` can carry the index of every byte (R6). -/
theorem bytes_le_two_pow_indexWidth (g : Geometry) : g.bytes ≤ 2 ^ g.indexWidth := by
  unfold Geometry.indexWidth
  split
  · next hone => exact hone.trans Nat.one_le_two_pow
  · calc g.bytes ≤ 2 ^ ((g.bytes - 1).log2 + 1) := Nat.le_of_pred_lt Nat.lt_log2_self
      _ ≤ 2 ^ max 1 ((g.bytes - 1).log2 + 1) := Nat.pow_le_pow_right Nat.two_pos (Nat.le_max_right _ _)

/-- Settles O4: the port's two ranges, and `bytes_le_two_pow_indexWidth`. -/
theorem readPortShowsBuffer : Obligations.ReadPortShowsBuffer := by
  refine ⟨fun s addr hbusy hlt => ?_, fun s addr hbusy hge => ?_, bytes_le_two_pow_indexWidth⟩
  · simp [bufData, hbusy, hlt]
  · simp [bufData, hbusy, Nat.not_lt.2 hge]

theorem maskedByte_on_twice (b mask : Byte) : maskedByte .on (maskedByte .on b mask) mask = maskedByte .on b mask := by
  simp only [maskedByte, BitVec.or_assoc, BitVec.or_self]

theorem maskedByte_off_twice (b mask : Byte) :
    maskedByte .off (maskedByte .off b mask) mask = maskedByte .off b mask := by
  simp only [maskedByte, BitVec.and_assoc, BitVec.and_self]

theorem maskedByte_invert_twice (b mask : Byte) : maskedByte .invert (maskedByte .invert b mask) mask = b := by
  simp only [maskedByte, BitVec.xor_assoc, BitVec.xor_self, BitVec.xor_zero]

/-- Settles O22: each byte by `read_applyMask`, the addressed one by what its masked byte is after two accesses. -/
theorem maskedWritesTwice : Obligations.MaskedWritesTwice := by
  intro m idx mask i
  simp only [read_applyMask]
  by_cases h : idx = i
  · simp only [if_pos h, maskedByte_on_twice, maskedByte_off_twice, maskedByte_invert_twice, and_self]
  · simp only [if_neg h, and_self]

end Sys2Proof.Machine
end

section
/-! The decoder and the encoder undo each other on well-formed commands (spec/30_encoding.md R61, R66, R69). -/

namespace Sys2Proof

/-- The two tables of the state selector agree (R63). -/
theorem decodeState_eq_some_iff {f : BitVec 2} {st : PixelState} : decodeState f = some st ↔ encodeState st = f :=
  ⟨encodeState_of_decodeState, fun h => h ▸ decodeState_encodeState st⟩

/-- 11 is the one reserved state (R63). -/
theorem decodeState_eq_none_iff {f : BitVec 2} : decodeState f = none ↔ f = 0b11 := by
  decide +revert

/-- A drawing command has its state from ST (R69). -/
theorem withState_eq_command_iff {f : BitVec 2} {make : PixelState → Instr} {i : Instr} :
    withState f make = .command i ↔ ∃ st, encodeState st = f ∧ make st = i := by
  simp only [← decodeState_eq_some_iff, withState]
  cases decodeState f <;> simp

/-- A drawing word is illegal by its ST alone when ST is reserved (R67). -/
theorem withState_illegal_iff {f : BitVec 2} {make : PixelState → Instr} :
    (∃ why, withState f make = .illegal why) ↔ f = 0b11 := by
  rw [← decodeState_eq_none_iff, withState]
  cases decodeState f <;> simp

theorem ifUnusedZero_eq_command_iff {zero : Bool} {d : Decoded} {i : Instr} :
    ifUnusedZero zero d = .command i ↔ zero = true ∧ d = .command i := by
  cases zero <;> simp [ifUnusedZero]

theorem ifUnusedZero_illegal_iff {zero : Bool} {d : Decoded} :
    (∃ why, ifUnusedZero zero d = .illegal why) ↔ zero = false ∨ ∃ why, d = .illegal why := by
  cases zero <;> simp [ifUnusedZero]

/-- The operations by their codes: reserved, or one of the nine (R64). -/
theorem op_cases (op : BitVec 4) : (op = 0x0 ∨ 0xA ≤ op.toNat) ∨ op = 0x1 ∨ op = 0x2 ∨ op = 0x3 ∨ op = 0x4 ∨ op = 0x5 ∨
    op = 0x6 ∨ op = 0x7 ∨ op = 0x8 ∨ op = 0x9 := by
  decide +revert

/-- A reserved operation is illegal whatever the other fields hold (R67). -/
theorem decodeOperation_reserved {f : CommandFields} (h : f.op = 0x0 ∨ 0xA ≤ f.op.toNat) :
    decodeOperation f = .illegal .reservedOperation := by
  unfold decodeOperation
  split
  case h_10 => rfl
  all_goals
    next hop => simp [BitVec.toNat_eq, hop] at h

/-- `D` of SETROT is its rotation when the bits above it are zero (R65). -/
theorem zeroExtend_rotation {d : BitVec 16} (h : d.extractLsb' 2 14 = 0) :
    (d.extractLsb' 0 2).zeroExtend 16 = d := by
  have hd : d.toNat / 4 % 16384 = 0 := by
    simpa [BitVec.toNat_eq, Nat.shiftRight_eq_div_pow] using h
  have hr : d.toNat % 4 % 65536 = d.toNat := by omega
  simpa [BitVec.toNat_eq] using hr

/-- `D` of SETROT's word holds the rotation and zeros above it (R65). -/
theorem rotation_zeroExtend (r : BitVec 2) :
    (r.zeroExtend 16).extractLsb' 0 2 = r ∧ (r.zeroExtend 16).extractLsb' 2 14 = 0 := by
  decide +revert

/-- R69's case distinction reads a well-formed command from its row of R65's columns. -/
theorem decodeOperation_instrFields {i : Instr} (h : wellFormed i = true) :
    decodeOperation (instrFields i) = .command i := by
  cases i
  all_goals
    simp only [wellFormed, Bool.and_eq_true] at h
    simp [decodeOperation, instrFields, ifUnusedZero, withState, s16_field16, h, rotation_zeroExtend]

/-- Fields that decode to a command are its row of R65's columns: each operation by what its case of R69 asks of the
fields. -/
theorem instrFields_of_decodeOperation {f : CommandFields} {i : Instr} (hrsv : f.rsv = 0)
    (h : decodeOperation f = .command i) : wellFormed i = true ∧ instrFields i = f := by
  obtain ⟨op, st, rsv, a, b, c, d⟩ := f
  cases hrsv
  rcases op_cases op with hop | rfl | rfl | rfl | rfl | rfl | rfl | rfl | rfl | rfl
  case inl =>
    rw [decodeOperation_reserved hop] at h
    cases h
  all_goals
    simp only [decodeOperation, BitVec.ofNat_eq_ofNat, BitVec.toNat_ofNat, Nat.reducePow, Nat.reduceMod, Nat.one_mod,
      ifUnusedZero_eq_command_iff, withState_eq_command_iff, Bool.and_eq_true, beq_iff_eq, and_assoc,
      Decoded.command.injEq] at h
  · obtain ⟨rfl, rfl, rfl, rfl, rfl, rfl⟩ := h
    exact ⟨rfl, rfl⟩
  · obtain ⟨rfl, rfl, rfl, rfl, hd, rfl⟩ := h
    simp [wellFormed, instrFields, zeroExtend_rotation hd]
  · obtain ⟨rfl, rfl, st, rfl, rfl⟩ := h
    simp [wellFormed, instrFields]
  · obtain ⟨rfl, rfl, rfl, rfl⟩ := h
    simp [wellFormed, instrFields]
  · obtain ⟨rfl, st, rfl, rfl⟩ := h
    simp [wellFormed, instrFields]
  · obtain ⟨rfl, st, rfl, rfl⟩ := h
    simp [wellFormed, instrFields]
  · obtain ⟨st, rfl, rfl⟩ := h
    simp [wellFormed, instrFields]
  · obtain ⟨rfl, rfl, rfl, rfl, rfl, rfl⟩ := h
    exact ⟨rfl, rfl⟩
  · obtain ⟨rfl, rfl, rfl, rfl, rfl, rfl⟩ := h
    exact ⟨rfl, rfl⟩

/-- R69's procedure: RSV first, then the operation's own case. -/
theorem decode_of_rsv {w : CommandWord} (h : (commandFields w).rsv = 0) :
    decode w = decodeOperation (commandFields w) := by
  simp [decode, h]

theorem decode_of_rsv_ne {w : CommandWord} (h : (commandFields w).rsv ≠ 0) : decode w = .illegal .reservedBits := by
  simp only [decode, beq_iff_eq, if_neg h]

@[simp] theorem instrFields_rsv (i : Instr) : (instrFields i).rsv = 0 := by
  cases i <;> rfl

@[simp] theorem commandFields_encode (i : Instr) : commandFields (encode i) = instrFields i :=
  commandFields_assembleFields _

/-- A word decodes to a command exactly when the command is well-formed and this is its word (R66, R69). -/
theorem decode_eq_command_iff {w : CommandWord} {i : Instr} :
    decode w = .command i ↔ wellFormed i = true ∧ encode i = w := by
  constructor
  · intro h
    by_cases hrsv : (commandFields w).rsv = 0
    · rw [decode_of_rsv hrsv] at h
      obtain ⟨hwf, hf⟩ := instrFields_of_decodeOperation hrsv h
      exact ⟨hwf, by rw [encode, hf, assembleFields_commandFields]⟩
    · cases (decode_of_rsv_ne hrsv).symm.trans h
  · rintro ⟨hwf, rfl⟩
    have hrsv : (commandFields (encode i)).rsv = 0 := by simp
    rw [decode_of_rsv hrsv, commandFields_encode, decodeOperation_instrFields hwf]

/-- Settles O6: `decode_eq_command_iff` from the command's side. -/
theorem decodeAfterEncode : Obligations.DecodeAfterEncode := fun _ hwf => decode_eq_command_iff.2 ⟨hwf, rfl⟩

/-- Settles O7: `decode_eq_command_iff` from the word's side. -/
theorem encodeAfterDecode : Obligations.EncodeAfterDecode := fun _ _ => decode_eq_command_iff.1

end Sys2Proof
end

section
/-! Which words are illegal, by their fields, and what the unit does with one (spec/30_encoding.md R67). -/

namespace Sys2Proof

open Machine

/-- R67's conditions on the fields of a word, by R65's columns. -/
def IllegalFields (f : CommandFields) : Prop :=
  (f.op = 0x0 ∨ 0xA ≤ f.op.toNat) ∨ f.rsv ≠ 0 ∨
    ((f.op = 0x1 ∨ f.op = 0x8 ∨ f.op = 0x9) ∧ (f.st ≠ 0 ∨ f.a ≠ 0 ∨ f.b ≠ 0 ∨ f.c ≠ 0 ∨ f.d ≠ 0)) ∨
    (f.op = 0x2 ∧ (f.st ≠ 0 ∨ f.a ≠ 0 ∨ f.b ≠ 0 ∨ f.c ≠ 0 ∨ f.d.extractLsb' 2 14 ≠ 0)) ∨
    (f.op = 0x3 ∧ (f.c ≠ 0 ∨ f.d ≠ 0)) ∨ (f.op = 0x4 ∧ (f.st ≠ 0 ∨ f.c ≠ 0 ∨ f.d ≠ 0)) ∨
    ((f.op = 0x5 ∨ f.op = 0x6) ∧ f.d ≠ 0) ∨
    ((f.op = 0x3 ∨ f.op = 0x5 ∨ f.op = 0x6 ∨ f.op = 0x7) ∧ f.st = 0b11)

/-- A word whose RSV is zero is illegal by its operation's own fields. -/
theorem decodeOperation_illegal_iff {f : CommandFields} (hrsv : f.rsv = 0) :
    (∃ why, decodeOperation f = .illegal why) ↔ IllegalFields f := by
  obtain ⟨op, st, rsv, a, b, c, d⟩ := f
  cases hrsv
  rcases op_cases op with hop | rfl | rfl | rfl | rfl | rfl | rfl | rfl | rfl | rfl
  case inl => exact iff_of_true ⟨_, decodeOperation_reserved hop⟩ (.inl hop)
  all_goals
    simp [decodeOperation, IllegalFields, ifUnusedZero_illegal_iff, withState_illegal_iff, imp_iff_not_or, or_assoc]

theorem decode_illegal_iff {w : CommandWord} : (∃ why, decode w = .illegal why) ↔ IllegalFields (commandFields w) := by
  by_cases hrsv : (commandFields w).rsv = 0
  · rw [decode_of_rsv hrsv, decodeOperation_illegal_iff hrsv]
  · exact iff_of_true ⟨_, decode_of_rsv_ne hrsv⟩ (.inr (.inl hrsv))

/-- Settles O8: the fields by `decode_illegal_iff`, the ready unit by `step_word` and `runWord_of_illegal`. -/
theorem illegalWordsAreExactly : Obligations.IllegalWordsAreExactly := by
  refine ⟨fun _ => decode_illegal_iff, ⟨_, rfl⟩, ⟨_, rfl⟩, ?_⟩
  rintro s w rest hbusy hin ⟨why, hd⟩
  rw [step_word hbusy hin, runWord_of_illegal hd]
  rfl

end Sys2Proof
end

section
/-! The rows of the opcode table are the commands, one row a mnemonic (spec/opcode_table.json; spec/30_encoding.md R66). -/

namespace Sys2Proof

/-- A masked word's fields are the word's under the mask's. -/
theorem commandFields_and (w m : CommandWord) : commandFields (w &&& m) =
    ⟨(commandFields w).op &&& (commandFields m).op, (commandFields w).st &&& (commandFields m).st,
      (commandFields w).rsv &&& (commandFields m).rsv, (commandFields w).a &&& (commandFields m).a,
      (commandFields w).b &&& (commandFields m).b, (commandFields w).c &&& (commandFields m).c,
      (commandFields w).d &&& (commandFields m).d⟩ := by
  simp only [commandFields, BitVec.extractLsb'_and]

theorem commandFields_injective : Function.Injective commandFields :=
  Function.LeftInverse.injective assembleFields_commandFields

/-- The operation that a row of the table matches. -/
def OpcodeRow.op (row : OpcodeRow) : BitVec 4 := (commandFields row.pattern).op

/-- SETROT's mask of `D` leaves the rotation out (R65). -/
theorem and_rotationMask {d : BitVec 16} : d &&& 0xFFFC#16 = 0#16 ↔ d.extractLsb' 2 14 = 0#14 := by
  constructor
  · intro h
    have hbits := congrArg (BitVec.extractLsb' 2 14) h
    rwa [BitVec.extractLsb'_and, show BitVec.extractLsb' 2 14 0xFFFC#16 = BitVec.allOnes 14 from rfl,
      BitVec.and_allOnes] at hbits
  · intro h
    rw [← zeroExtend_rotation h]
    generalize d.extractLsb' 0 2 = r
    decide +revert

/-- A row admits a word exactly when the word has the row's operation and is not illegal (R66, R67). -/
theorem OpcodeRow.admits_iff {row : OpcodeRow} (hrow : row ∈ opcodeTable) (w : CommandWord) :
    row.admits w = true ↔ (commandFields w).op = row.op ∧ ¬ IllegalFields (commandFields w) := by
  have hst : w.extractLsb' 66 2 = (commandFields w).st := rfl
  rw [OpcodeRow.admits, ← commandFields_injective.beq_eq, commandFields_and, hst, OpcodeRow.op]
  generalize commandFields w = f
  obtain ⟨op, st, rsv, a, b, c, d⟩ := f
  have hmask4 (x : BitVec 4) : x &&& 0xF#4 = x := BitVec.and_allOnes
  have hmask2 (x : BitVec 2) : x &&& 0b11#2 = x := BitVec.and_allOnes
  have hmask16 (x : BitVec 16) : x &&& 0xFFFF#16 = x := BitVec.and_allOnes
  simp only [opcodeTable, List.mem_cons, List.not_mem_nil, or_false] at hrow
  rcases hrow with rfl | rfl | rfl | rfl | rfl | rfl | rfl | rfl | rfl
  all_goals
    simp only [commandFields, BitVec.ofNat_eq_ofNat, BitVec.reduceExtractLsb', hmask4, hmask2, hmask16, and_rotationMask,
      BitVec.and_zero, Bool.false_and, Bool.true_and, Bool.not_false, Bool.and_true, Bool.and_eq_true, Bool.not_eq_true',
      beq_iff_eq, beq_eq_false_iff_ne, CommandFields.mk.injEq, true_and, and_assoc, and_congr_right_iff]
    rintro rfl
    simp [IllegalFields, and_assoc, and_left_comm]

/-- A command's word has the operation of the row that carries its mnemonic (R65). -/
theorem exists_row_mnemonic (i : Instr) :
    ∃ row ∈ opcodeTable, row.mnemonic = mnemonicOf i ∧ row.op = (instrFields i).op := by
  cases i <;> simp [opcodeTable, OpcodeRow.op, instrFields, mnemonicOf, commandFields]

/-- No two rows match one operation. -/
theorem row_eq_of_op : ∀ row ∈ opcodeTable, ∀ row' ∈ opcodeTable, row.op = row'.op → row = row' := by
  decide

/-- A word is a command or illegal (R68). -/
theorem decode_command_iff {w : CommandWord} : (∃ i, decode w = .command i) ↔ ¬ IllegalFields (commandFields w) := by
  rw [← decode_illegal_iff]
  cases decode w <;> simp

/-- The row of a word's command is the one that admits the word. -/
theorem exists_row_admits_iff {w : CommandWord} {i : Instr} (hd : decode w = .command i) :
    ∃ row ∈ opcodeTable, row.mnemonic = mnemonicOf i ∧ ∀ row' ∈ opcodeTable, row'.admits w = true ↔ row' = row := by
  have hlegal := decode_command_iff.1 ⟨i, hd⟩
  obtain ⟨-, rfl⟩ := decode_eq_command_iff.1 hd
  obtain ⟨row, hrow, hname, hop⟩ := exists_row_mnemonic i
  refine ⟨row, hrow, hname, fun row' hrow' => ?_⟩
  rw [OpcodeRow.admits_iff hrow', and_iff_left hlegal, commandFields_encode, ← hop]
  exact ⟨fun h => (row_eq_of_op row hrow row' hrow' h).symm, fun h => h ▸ rfl⟩

/-- Settles O10: the row of a command by `exists_row_admits_iff`, an admitted word by `OpcodeRow.admits_iff`, and the one
word of a command by `decode_eq_command_iff`. -/
theorem opcodeTableDecidesLegality : Obligations.OpcodeTableDecidesLegality := by
  refine ⟨fun w => ⟨?_, ?_⟩, ?_, ?_⟩
  · rintro ⟨i, hd⟩
    obtain ⟨row, hrow, -, hadmits⟩ := exists_row_admits_iff hd
    exact ⟨row, hrow, (hadmits row hrow).2 rfl⟩
  · rintro ⟨row, hrow, hadmits⟩
    exact decode_command_iff.2 ((OpcodeRow.admits_iff hrow w).1 hadmits).2
  · intro w i row' hd hrow' hadmits'
    obtain ⟨row, -, hname, hadmits⟩ := exists_row_admits_iff hd
    rw [(hadmits row' hrow').1 hadmits', hname]
  · intro w w' i hd hd'
    exact (decode_eq_command_iff.1 hd).2.symm.trans (decode_eq_command_iff.1 hd').2

end Sys2Proof
end

section
/-! Sample words and the text form (spec/30_encoding.md R69 to R72; spec/95_test_vectors.md section 2.1). -/

namespace Sys2Proof

/-- Settles O11: each word is a closed term, which the decoder evaluates. -/
theorem sampleWordsDecode : Obligations.SampleWordsDecode := by
  unfold Obligations.SampleWordsDecode
  decide

/-- A mnemonic is no second name (R71). -/
theorem resolveName_mnemonicOf (i : Instr) : resolveName (mnemonicOf i) = mnemonicOf i := by
  cases i <;> simp [resolveName, secondNames, mnemonicOf]

theorem rotationOperand_toNat (r : BitVec 2) : rotationOperand r.toNat = some r := by
  decide +revert

/-- The text form's signature of a mnemonic is that of its command (R70). -/
theorem commandOf_mnemonicOf (i : Instr) : commandOf (mnemonicOf i) (textOperands i) = some i := by
  cases i <;> simp [commandOf, mnemonicOf, textOperands, rotationOperand_toNat]

theorem parseCommand_mnemonicOf {i : Instr} (hwf : wellFormed i = true) :
    parseCommand (mnemonicOf i) (textOperands i) = some i := by
  rw [parseCommand, resolveName_mnemonicOf, commandOf_mnemonicOf, Option.filter_some, if_pos hwf]

/-- Names that stand for one mnemonic assemble alike, whatever the operands (R71). -/
theorem assembleCommand_congr {name name' : String} (h : resolveName name = resolveName name')
    (operands : List TextOperand) : assembleCommand name operands = assembleCommand name' operands := by
  rw [assembleCommand, assembleCommand, parseCommand, parseCommand, h]

/-- What assembles is the word of a well-formed command (R70). -/
theorem wellFormed_of_assembleCommand {name : String} {operands : List TextOperand} {w : CommandWord}
    (h : assembleCommand name operands = some w) : ∃ i, wellFormed i = true ∧ w = encode i := by
  obtain ⟨i, hparse, rfl⟩ := Option.map_eq_some_iff.1 h
  exact ⟨i, (Option.filter_eq_some_iff.1 hparse).2, rfl⟩

/-- Settles O13: the second names by `assembleCommand_congr`, a command's own text by `parseCommand_mnemonicOf`, and the
converse by `wellFormed_of_assembleCommand`. -/
theorem textAssemblesToWords : Obligations.TextAssemblesToWords := by
  have hnames : ∀ names ∈ secondNames, resolveName names.1 = resolveName names.2 := by decide
  refine ⟨fun names hmem => assembleCommand_congr (hnames names hmem), fun i hwf => ?_, fun _ _ _ =>
    wellFormed_of_assembleCommand⟩
  rw [assembleCommand, parseCommand_mnemonicOf hwf, Option.map_some]

/-- Settles O60: every line is a closed term, which the assembler evaluates. -/
theorem textLinesAssemble : Obligations.TextLinesAssemble := by
  unfold Obligations.TextLinesAssemble
  decide

end Sys2Proof
end

section
/-! CLEAR, SETROT, GETWIDTH and GETHEIGHT (spec/40_config.md R80 to R83). -/

namespace Sys2Proof.Machine

/-- GETPIXEL's bit on a buffer of zeros: an address in range lies below N (R49, R99). -/
theorem readPixelLogical_of_zeros {g : Geometry} {m : Memory} (hm : ∀ i, i < g.bytes → m.read i = 0x00)
    (rot : BitVec 2) (x y : Int) : readPixelLogical g rot m x y = false := by
  unfold readPixelLogical
  split
  · next hrange =>
    have hlt : (logicalBit g rot x y).1 < g.bytes := (panelBit_bitAddr (inPanel_xform hrange)).1
    rw [hm _ hlt]
    exact BitVec.getLsbD_zero
  · rfl

/-- Settles O14: CLEAR's stores by `read_clearBytes`, GETPIXEL afterwards by `readPixelLogical_of_zeros`. -/
theorem clearZeroFills : Obligations.ClearZeroFills := by
  refine ⟨by decide, fun s => ?_⟩
  have hzero : ∀ i, i < s.geometry.bytes → (clearBytes s.geometry.bytes 0 s.buf).read i = 0x00 := fun i hi => by
    rw [read_clearBytes, if_pos (by omega)]
  refine ⟨_, rfl, hzero, fun i hi => ?_, fun rot x y => ?_⟩
  · rw [read_clearBytes, if_neg (by omega)]
  · rw [exec, execGetpixel, readPixelLogical_of_zeros hzero]
    rfl

/-- The response of a size that a legal geometry allows is the size itself, and its bit 15 is 0 (R82, R83). -/
theorem toNat_response {n : Nat} (h : 1 ≤ n ∧ n ≤ 32767) :
    (BitVec.ofNat 16 n).toNat = n ∧ 1 ≤ (BitVec.ofNat 16 n).toNat ∧ (BitVec.ofNat 16 n).getLsbD 15 = false := by
  have hn : (BitVec.ofNat 16 n).toNat = n := by rw [BitVec.toNat_ofNat]; omega
  refine ⟨hn, by omega, ?_⟩
  rw [BitVec.getLsbD, hn]
  exact Nat.testBit_lt_two_pow (by omega)

theorem logicalWidth_eq_ite (g : Geometry) (rot : BitVec 2) :
    logicalWidth g rot = if rot.getLsbD 0 = false then g.panelW else g.panelH := by
  unfold logicalWidth
  cases rot.getLsbD 0 <;> rfl

/-- The logical height is the logical width of the panel with its two sides exchanged (R25). -/
theorem logicalHeight_eq_logicalWidth (g : Geometry) (rot : BitVec 2) :
    logicalHeight g rot = logicalWidth ⟨g.panelH, g.panelW⟩ rot := rfl

theorem logicalHeight_eq_ite (g : Geometry) (rot : BitVec 2) :
    logicalHeight g rot = if rot.getLsbD 0 = false then g.panelH else g.panelW := by
  rw [logicalHeight_eq_logicalWidth, logicalWidth_eq_ite]

/-- ROT[0] is 0 under rotations 0 and 2 alone (R25). -/
theorem getLsbD_zero_eq_false_iff {rot : BitVec 2} : rot.getLsbD 0 = false ↔ rot = 0 ∨ rot = 2 := by
  decide +revert

theorem logicalWidth_bounds {g : Geometry} (hg : g.Legal) (rot : BitVec 2) :
    1 ≤ logicalWidth g rot ∧ logicalWidth g rot ≤ 32767 := by
  rw [logicalWidth_eq_ite]
  split
  · exact hg.1
  · exact hg.2

theorem logicalHeight_bounds {g : Geometry} (hg : g.Legal) (rot : BitVec 2) :
    1 ≤ logicalHeight g rot ∧ logicalHeight g rot ≤ 32767 :=
  logicalWidth_bounds (g := ⟨g.panelH, g.panelW⟩) hg.symm rot

/-- The bits of D above SETROT's rotation are bits 15 to 2 of the word (R61, R65). -/
theorem extractLsb'_commandFields_d (w : CommandWord) :
    (commandFields w).d.extractLsb' 2 14 = w.extractLsb' 2 14 :=
  BitVec.extractLsb'_extractLsb'_of_le (by decide)

/-- Settles O15: the logical size by its equation in ROT[0], an illegal word by `decode_illegal_iff`, the port by
`status_fields`. -/
theorem setrotWritesRotAlone : Obligations.SetrotWritesRotAlone := by
  refine ⟨fun _ _ => rfl, by decide, fun g r => ?_, fun w hop hd => ?_, _, rfl, rfl, rfl, (status_fields _).2.2⟩
  · simp only [logicalWidth_eq_ite, logicalHeight_eq_ite, getLsbD_zero_eq_false_iff, and_self]
  · rw [← extractLsb'_commandFields_d] at hd
    exact decode_illegal_iff.2 (.inr (.inr (.inr (.inl ⟨hop, .inr (.inr (.inr (.inr hd)))⟩))))

/-- Settles O16: the response is the logical width, which `toNat_response` reads back. -/
theorem getwidthAnswersLogicalWidth : Obligations.GetwidthAnswersLogicalWidth := by
  refine ⟨by decide, fun s => ?_, fun s t hg h => ?_, ⟨_, rfl, rfl⟩, ⟨_, rfl, rfl⟩⟩
  · rw [← logicalWidth_eq_ite]
    rfl
  · cases h
    exact toNat_response (logicalWidth_bounds hg s.rot)

/-- Settles O17: the response is the logical height, which `toNat_response` reads back. -/
theorem getheightAnswersLogicalHeight : Obligations.GetheightAnswersLogicalHeight := by
  refine ⟨by decide, fun s => ?_, fun s t hg h => ?_, ⟨_, rfl, rfl⟩, ⟨_, rfl, rfl⟩, ⟨_, rfl, rfl⟩⟩
  · rw [← logicalHeight_eq_ite]
    rfl
  · cases h
    exact toNat_response (logicalHeight_bounds hg s.rot)

end Sys2Proof.Machine
end

section
/-! Rotation: its inverse, and the range check on its two sides (spec/41_pixel.md R91 to R93). -/

namespace Sys2Proof.Machine

/-- The logical rectangle LW by LH, taken as a panel (R25). -/
def logicalGeometry (g : Geometry) (rot : BitVec 2) : Geometry := ⟨logicalWidth g rot, logicalHeight g rot⟩

/-- The logical rectangle, turned back, is the panel. -/
theorem logicalGeometry_neg (g : Geometry) (rot : BitVec 2) : logicalGeometry (logicalGeometry g rot) (-rot) = g := by
  rcases rot_cases rot with rfl | rfl | rfl | rfl <;> rfl

/-- A rotation is undone by the opposite rotation of the logical rectangle. -/
theorem xform_neg_xform (g : Geometry) (rot : BitVec 2) (x y : Int) :
    xform (logicalGeometry g rot) (-rot) (xform g rot x y).1 (xform g rot x y).2 = (x, y) := by
  rcases rot_cases rot with rfl | rfl | rfl | rfl <;> simp [logicalGeometry]

/-- A rotation undoes the opposite rotation of the logical rectangle. -/
theorem xform_xform_neg (g : Geometry) (rot : BitVec 2) (x y : Int) :
    xform g rot (xform (logicalGeometry g rot) (-rot) x y).1 (xform (logicalGeometry g rot) (-rot) x y).2 = (x, y) := by
  have h := xform_neg_xform (logicalGeometry g rot) (-rot) x y
  rwa [logicalGeometry_neg, BitVec.neg_neg] at h

/-- The range check before the rotation is the panel bound after it (R93). -/
theorem inRange_iff_inPanel_xform {g : Geometry} {rot : BitVec 2} {x y : Int} :
    InRange g rot x y ↔ InPanel g (xform g rot x y) := by
  refine ⟨inPanel_xform, fun h => ?_⟩
  rcases rot_cases rot with rfl | rfl | rfl | rfl <;> simp [InRange, InPanel] at h ⊢ <;> omega

/-- Settles O19: the rotation has an inverse on both sides (`xform_neg_xform`, `xform_xform_neg`), and the range check
is `inRange_iff_inPanel_xform`. -/
theorem rotationMapsRangeOntoPanel : Obligations.RotationMapsRangeOntoPanel := by
  refine fun g rot => ⟨fun x y => inRange_iff_inPanel_xform, fun x y x' y' h => ?_, fun p hp => ?_⟩
  · have hback := xform_neg_xform g rot x y
    rw [h, xform_neg_xform] at hback
    exact ⟨(congrArg Prod.fst hback).symm, (congrArg Prod.snd hback).symm⟩
  · have himage := xform_xform_neg g rot p.1 p.2
    exact ⟨_, _, inRange_iff_inPanel_xform.2 (himage ▸ hp), himage⟩

/-- Settles O18: each row is an arm of the transform. -/
theorem rotationTableRows : Obligations.RotationTableRows :=
  fun g x y => ⟨xform_zero g x y, xform_one g x y, xform_two g x y, xform_three g x y⟩

/-- Settles O27: the addresses and the coordinates are closed terms. -/
theorem cornerPixelsLand : Obligations.CornerPixelsLand := by
  unfold Obligations.CornerPixelsLand
  decide

end Sys2Proof.Machine
end

section
/-! The fields of a word, put together again as its TT byte and its lower half (spec/30_encoding.md R61, R72). -/

namespace Sys2Proof

/-- The TT byte is `{OP, ST, RSV}` (R72). -/
theorem extractLsb'_tt (w : CommandWord) :
    w.extractLsb' 64 8 = (commandFields w).op ++ (commandFields w).st ++ (commandFields w).rsv := by
  have hop : (commandFields w).op ++ (commandFields w).st = w.extractLsb' 66 6 :=
    BitVec.extractLsb'_append_extractLsb'_eq_extractLsb' rfl
  have hrsv : w.extractLsb' 66 6 ++ (commandFields w).rsv = w.extractLsb' 64 8 :=
    BitVec.extractLsb'_append_extractLsb'_eq_extractLsb' rfl
  rw [hop, hrsv]

/-- The lower half of a word is `{C, D}` (R61). -/
theorem extractLsb'_cd (w : CommandWord) : w.extractLsb' 0 32 = (commandFields w).c ++ (commandFields w).d := by
  have hcd : (commandFields w).c ++ (commandFields w).d = w.extractLsb' 0 32 :=
    BitVec.extractLsb'_append_extractLsb'_eq_extractLsb' rfl
  exact hcd.symm

end Sys2Proof
end

section
/-! SETPIXEL and GETPIXEL (spec/41_pixel.md R95 to R101). -/

namespace Sys2Proof.Machine

variable {g : Geometry} {rot : BitVec 2} {st : PixelState} {m : Memory} {x y : Int}

/-- Settles O21: the bytes by `read_applyMask`, mask 0xFF by `fillByte_eq_applyMask`, the bits by `bitAt_applyMask`. -/
theorem applyChangesMaskedBits : Obligations.ApplyChangesMaskedBits := by
  refine fun m idx mask => ⟨?_, fun st i hi => ?_, ?_, fun st k hk => ?_, fun k hk => ?_⟩
  · simp only [read_applyMask, if_pos, maskedByte, and_self]
  · rw [read_applyMask, if_neg hi.symm]
  · rw [← fillByte_eq_applyMask, ← fillByte_eq_applyMask]
    exact ⟨read_write_same, read_write_same⟩
  · rw [bitAt_applyMask, if_neg (by simp [hk])]
  · simp only [bitAt_applyMask, hk, and_self, if_pos, newBit]

/-- SETPIXEL replaces BUF alone (R98). -/
theorem exec_setpixel (x y : Int) (st : PixelState) (s : State) :
    exec (.setpixel x y st) s = .next { s with buf := setPixelLogical s.geometry s.rot st s.buf x y } := rfl

/-- GETPIXEL replaces RSP alone (R99). -/
theorem exec_getpixel (x y : Int) (s : State) : exec (.getpixel x y) s =
    .next { s with rsp := if readPixelLogical s.geometry s.rot s.buf x y then 0x0001 else 0x0000 } := by
  rw [exec, execGetpixel]
  cases readPixelLogical s.geometry s.rot s.buf x y <;> rfl

/-- The addressed bit after SetPixelLogical in range (R97). -/
theorem bitAt_setPixelLogical_logicalBit (h : InRange g rot x y) :
    bitAt (setPixelLogical g rot st m x y) (logicalBit g rot x y) = newBit st (bitAt m (logicalBit g rot x y)) := by
  rw [bitAt_setPixelLogical, if_pos ⟨h, rfl⟩]

/-- Every bit but the addressed one after SetPixelLogical (R97). -/
theorem bitAt_setPixelLogical_other {p : Nat × Nat} (h : p ≠ logicalBit g rot x y) :
    bitAt (setPixelLogical g rot st m x y) p = bitAt m p := by
  rw [bitAt_setPixelLogical, if_neg fun hp => h hp.2]

/-- SetPixelLogical is dropped out of range (R97). -/
theorem setPixelLogical_of_not_inRange (h : ¬ InRange g rot x y) : setPixelLogical g rot st m x y = m := if_neg h

/-- The bit that GETPIXEL reads in range (R99). -/
theorem readPixelLogical_of_inRange (h : InRange g rot x y) :
    readPixelLogical g rot m x y = bitAt m (logicalBit g rot x y) := if_pos h

/-- The bit that GETPIXEL reads out of range is that of OFF (R99). -/
theorem readPixelLogical_of_not_inRange (h : ¬ InRange g rot x y) : readPixelLogical g rot m x y = false := if_neg h

/-- SetPixelLogical depends on its coordinate and rotation by the physical coordinate alone (R90, R93). -/
theorem setPixelLogical_congr {rot' : BitVec 2} {x' y' : Int} (h : xform g rot x y = xform g rot' x' y') :
    setPixelLogical g rot st m x y = setPixelLogical g rot' st m x' y' := by
  simp only [setPixelLogical, logicalBit, inRange_iff_inPanel_xform, h]

/-- SetPixelLogical under ROT 2 is SetPixelLogical at the reflected point under ROT 0 (R101). -/
theorem setPixelLogical_half_turn : setPixelLogical g 2 st m x y =
    setPixelLogical g 0 st m ((g.panelW : Int) - 1 - x) ((g.panelH : Int) - 1 - y) :=
  setPixelLogical_congr rfl

/-- What is read back where a pixel has just been written in range. -/
theorem readPixelLogical_setPixelLogical (h : InRange g rot x y) :
    readPixelLogical g rot (setPixelLogical g rot st m x y) x y = newBit st (readPixelLogical g rot m x y) := by
  rw [readPixelLogical_of_inRange h, readPixelLogical_of_inRange h, bitAt_setPixelLogical_logicalBit h]

/-- Two inversions of one pixel leave every byte as it was, in range or not. -/
theorem read_setPixelLogical_invert_twice (i : Nat) :
    (setPixelLogical g rot .invert (setPixelLogical g rot .invert m x y) x y).read i = m.read i := by
  refine read_eq_of_bitAt fun k => ?_
  rw [bitAt_setPixelLogical, bitAt_setPixelLogical]
  split
  · simp only [newBit, Bool.not_not]
  · rfl

/-- On a canonical buffer two inversions of one pixel leave the same data. -/
theorem setPixelLogical_invert_twice (hm : m.wf) :
    setPixelLogical g rot .invert (setPixelLogical g rot .invert m x y) x y = m :=
  wf_ext (wf_setPixelLogical (wf_setPixelLogical hm x y) x y) hm fun _ => read_setPixelLogical_invert_twice _

/-- Settles O23: the bits by `bitAt_setPixelLogical`, a byte by its bits, the TT bytes by `extractLsb'_tt`. -/
theorem setpixelChangesOneBit : Obligations.SetpixelChangesOneBit := by
  refine ⟨fun x y st s h => ?_, fun x y st s h => ?_, fun x y => ?_, _, rfl, by decide⟩
  · refine ⟨_, exec_setpixel x y st s, bitAt_setPixelLogical_logicalBit h, fun p => bitAt_setPixelLogical_other,
      fun i hi => read_eq_of_bitAt fun k => bitAt_setPixelLogical_other fun hp => hi (congrArg Prod.fst hp)⟩
  · rw [exec_setpixel, setPixelLogical_of_not_inRange h]
  · simp only [extractLsb'_tt, commandFields_encode, instrFields]
    decide

/-- Settles O25: ON and OFF by `readPixelLogical_setPixelLogical`, INVERT by `setPixelLogical_invert_twice`. -/
theorem pixelReadsBack : Obligations.PixelReadsBack := by
  refine fun x y s h => ⟨⟨_, exec_setpixel x y .on s, ?_⟩, ⟨_, exec_setpixel x y .off s, ?_⟩, _, _,
    exec_setpixel x y .invert s, exec_setpixel x y .invert _, fun _ => read_setPixelLogical_invert_twice _,
    fun hm => ?_⟩
  · rw [exec_getpixel, readPixelLogical_setPixelLogical h]
    rfl
  · rw [exec_getpixel, readPixelLogical_setPixelLogical h]
    rfl
  · simp only [setPixelLogical_invert_twice hm]

/-- Settles O24: the response by `exec_getpixel` in range and out of range, the word by its fields. -/
theorem getpixelAnswersTheBit : Obligations.GetpixelAnswersTheBit := by
  refine ⟨fun x y s h => ?_, fun x y s h => ?_, fun x y => ?_, ⟨_, rfl, by decide⟩, ⟨_, rfl, by decide⟩,
    ⟨_, rfl, by decide⟩⟩
  · rw [exec_getpixel, readPixelLogical_of_inRange h, logicalBit]
  · rw [exec_getpixel, readPixelLogical_of_not_inRange h]
    rfl
  · simp only [extractLsb'_tt, extractLsb'_cd, commandFields_encode, instrFields]
    decide

/-- The logical rectangle of a square panel is the panel. -/
theorem logicalGeometry_of_square (hsq : g.panelW = g.panelH) (rot : BitVec 2) : logicalGeometry g rot = g := by
  obtain ⟨w, h⟩ := g
  cases hsq
  simp only [logicalGeometry, logicalWidth, logicalHeight, ite_self]

/-- Settles O26: the reflection by `setPixelLogical_half_turn`, the compositions by `xform_neg_xform`, as ROT 2 is its
own opposite and ROT 3 that of ROT 1. -/
theorem halfTurnIsPointReflection : Obligations.HalfTurnIsPointReflection := by
  refine ⟨fun x y st s => ⟨_, ?_, exec_setpixel _ _ st _⟩, fun g x y => xform_neg_xform g 2 x y, fun g x y hsq => ?_⟩
  · rw [exec_setpixel, setPixelLogical_half_turn]
  · have h13 := xform_neg_xform g 3 x y
    have h31 := xform_neg_xform g 1 x y
    rw [logicalGeometry_of_square hsq] at h13 h31
    exact ⟨h13, h31⟩

end Sys2Proof.Machine
end

section
/-! What a list of logical cells does to the bits of the buffer: each cell in range acts on its own bit once, and
nothing else changes (spec/41_pixel.md R96, R97; spec/42_runs.md R118, R120). -/

namespace Sys2Proof.Machine

/-- The buffer bit `p` is that of one of the cells, and this cell is in range (R90, R91). -/
abbrev Covers (g : Geometry) (rot : BitVec 2) (cells : List (Int × Int)) (p : Nat × Nat) : Prop :=
  ∃ c ∈ cells, InRange g rot c.1 c.2 ∧ p = logicalBit g rot c.1 c.2

/-- `m'` is `m` with the state applied once to every bit that the cells cover and with every other bit as it was. -/
def Painted (g : Geometry) (rot : BitVec 2) (st : PixelState) (cells : List (Int × Int)) (m m' : Memory) : Prop :=
  ∀ p, bitAt m' p = if Covers g rot cells p then newBit st (bitAt m p) else bitAt m p

variable {g : Geometry} {rot : BitVec 2} {st : PixelState} {cells : List (Int × Int)} {m m' m'' : Memory}

theorem Painted.bitAt_cell (h : Painted g rot st cells m m') {c : Int × Int} (hc : c ∈ cells)
    (hrange : InRange g rot c.1 c.2) :
    bitAt m' (logicalBit g rot c.1 c.2) = newBit st (bitAt m (logicalBit g rot c.1 c.2)) := by
  rw [h, if_pos ⟨c, hc, hrange, rfl⟩]

theorem Painted.bitAt_other (h : Painted g rot st cells m m') {p : Nat × Nat}
    (hp : ∀ c ∈ cells, InRange g rot c.1 c.2 → p ≠ logicalBit g rot c.1 c.2) : bitAt m' p = bitAt m p := by
  rw [h, if_neg]
  rintro ⟨c, hc, hrange, he⟩
  exact hp c hc hrange he

/-- A byte that holds no bit of a cell is as it was. -/
theorem Painted.read_other (h : Painted g rot st cells m m') {i : Nat}
    (hi : ∀ c ∈ cells, InRange g rot c.1 c.2 → i ≠ (logicalBit g rot c.1 c.2).1) : m'.read i = m.read i :=
  read_eq_of_bitAt fun _ => h.bitAt_other fun c hc hrange he => hi c hc hrange (congrArg Prod.fst he)

/-- The cells determine every byte of the result. -/
theorem Painted.read_unique (h : Painted g rot st cells m m') (h' : Painted g rot st cells m m'') (i : Nat) :
    m'.read i = m''.read i :=
  read_eq_of_bitAt fun k => (h (i, k)).trans (h' (i, k)).symm

/-- Inverting the same cells twice leaves every byte as it was (R120). -/
theorem Painted.read_invert_twice (h : Painted g rot .invert cells m m') (h' : Painted g rot .invert cells m' m'')
    (i : Nat) : m''.read i = m.read i := by
  refine read_eq_of_bitAt fun k => ?_
  rw [h', h]
  split
  · simp only [newBit, Bool.not_not]
  · rfl

/-- Two logical cells in range have different buffer bits (R43, R93). -/
theorem cell_eq_of_logicalBit_eq {c c' : Int × Int} (hc : InRange g rot c.1 c.2) (hc' : InRange g rot c'.1 c'.2)
    (h : logicalBit g rot c.1 c.2 = logicalBit g rot c'.1 c'.2) : c = c' := by
  have hphys : xform g rot c.1 c.2 = xform g rot c'.1 c'.2 := by
    rw [← addrPixel_bitAddr (inPanel_xform hc), ← addrPixel_bitAddr (inPanel_xform hc')]
    exact congrArg (addrPixel g) h
  calc c = xform (logicalGeometry g rot) (-rot) (xform g rot c.1 c.2).1 (xform g rot c.1 c.2).2 :=
        (xform_neg_xform g rot c.1 c.2).symm
    _ = c' := by rw [hphys, xform_neg_xform]

/-- SetPixelLogical once for each of different cells: no bit is touched twice, by `cell_eq_of_logicalBit_eq`. -/
theorem painted_setPixels (hcells : cells.Nodup) : Painted g rot st cells m (setPixels g rot st cells m) := by
  intro p
  induction cells generalizing m with
  | nil => simp [setPixels]
  | cons c rest ih =>
    obtain ⟨hc, hrest⟩ := List.nodup_cons.1 hcells
    rw [setPixels, ih hrest, bitAt_setPixelLogical]
    by_cases hp : InRange g rot c.1 c.2 ∧ p = logicalBit g rot c.1 c.2
    · have hnot : ¬ Covers g rot rest p := by
        rintro ⟨c', hc', hrange, he⟩
        exact hc (cell_eq_of_logicalBit_eq hp.1 hrange (hp.2.symm.trans he) ▸ hc')
      rw [if_neg hnot, if_pos hp, if_pos ⟨c, List.mem_cons_self, hp⟩]
    · have hiff : Covers g rot (c :: rest) p ↔ Covers g rot rest p := by simp [Covers, hp]
      simp only [if_neg hp, hiff]

theorem wf_setPixels (h : m.wf) (cells : List (Int × Int)) : (setPixels g rot st cells m).wf := by
  induction cells generalizing m with
  | nil => exact h
  | cons c rest ih => exact ih (wf_setPixelLogical h c.1 c.2)

/-- Painting different cells is SetPixelLogical once for each, and the same data on a canonical buffer (R118). -/
theorem Painted.equals_setPixels (h : Painted g rot st cells m m') (hcells : cells.Nodup) (hwf : m.wf → m'.wf) :
    (∀ i, m'.read i = (setPixels g rot st cells m).read i) ∧ (m.wf → m' = setPixels g rot st cells m) :=
  have hread := h.read_unique (painted_setPixels hcells)
  ⟨hread, fun hm => wf_ext (hwf hm) (wf_setPixels hm cells) hread⟩

/-- Inverting the same cells twice restores the buffer, and on a canonical one the state (R120). -/
theorem Painted.invert_twice_restores {s : State} (h : Painted g rot .invert cells s.buf m)
    (h' : Painted g rot .invert cells m m') (hwf : s.buf.wf → m'.wf) :
    (∀ i, m'.read i = s.buf.read i) ∧ (s.buf.wf → { s with buf := m' } = s) :=
  have hread := h.read_invert_twice h'
  ⟨hread, fun hm => by rw [wf_ext (hwf hm) hm hread]⟩

end Sys2Proof.Machine
end

section
/-! The cells of a run, logical and physical, and what every run does to the bits of the buffer (spec/42_runs.md R110 to
R118). -/

namespace Sys2Proof.Machine

variable {g : Geometry} {rot : BitVec 2} {st : PixelState} {m : Memory} {x y len : Int}

theorem mem_rowCells {c : Int × Int} : c ∈ rowCells x y len ↔ (x ≤ c.1 ∧ c.1 < x + len) ∧ c.2 = y := by
  obtain ⟨u, v⟩ := c
  simp only [rowCells, List.mem_map, List.mem_range, Prod.mk.injEq]
  constructor
  · rintro ⟨i, hi, rfl, rfl⟩
    omega
  · rintro ⟨hu, rfl⟩
    exact ⟨(u - x).toNat, by omega, by omega, rfl⟩

theorem mem_columnCells {c : Int × Int} : c ∈ columnCells x y len ↔ c.1 = x ∧ y ≤ c.2 ∧ c.2 < y + len := by
  obtain ⟨u, v⟩ := c
  simp only [columnCells, List.mem_map, List.mem_range, Prod.mk.injEq]
  constructor
  · rintro ⟨i, hi, rfl, rfl⟩
    omega
  · rintro ⟨rfl, hv⟩
    exact ⟨(v - y).toNat, by omega, rfl, by omega⟩

theorem nodup_rowCells : (rowCells x y len).Nodup := by
  refine List.nodup_range.map fun i j h => ?_
  simpa using h

theorem nodup_columnCells : (columnCells x y len).Nodup := by
  refine List.nodup_range.map fun i j h => ?_
  simpa using h

/-- A statement about the cells of a horizontal run is one about their columns. -/
theorem forall_rowCells {P : Int × Int → Prop} :
    (∀ c ∈ rowCells x y len, P c) ↔ ∀ u : Int, x ≤ u → u < x + len → P (u, y) := by
  refine ⟨fun h u hx hlen => h _ (mem_rowCells.2 ⟨⟨hx, hlen⟩, rfl⟩), fun h c hc => ?_⟩
  obtain ⟨⟨hx, hlen⟩, rfl⟩ := mem_rowCells.1 hc
  exact h c.1 hx hlen

/-- A statement about the cells of a vertical run is one about their rows. -/
theorem forall_columnCells {P : Int × Int → Prop} :
    (∀ c ∈ columnCells x y len, P c) ↔ ∀ v : Int, y ≤ v → v < y + len → P (x, v) := by
  refine ⟨fun h v hy hlen => h _ (mem_columnCells.2 ⟨rfl, hy, hlen⟩), fun h c hc => ?_⟩
  obtain ⟨rfl, hy, hlen⟩ := mem_columnCells.1 hc
  exact h c.2 hy hlen

/-- The physical cells that a call of a run primitive covers before the clip (R110, R111). -/
def PhysicalRun.cells : PhysicalRun → List (Int × Int)
  | .row px py len => rowCells px py len
  | .column px py len => columnCells px py len

/-! A physical cell is a logical one under ROT 0: a primitive acts on the bits of its cells on the panel (R110,
R111). -/

theorem painted_phrun : Painted g 0 st (rowCells x y len) m (phrun g st m x y len) := by
  intro p
  obtain ⟨hcell, hother⟩ := bitAt_phrun (g := g) (st := st) (m := m) x y len p
  split
  · next hp =>
    obtain ⟨⟨u, v⟩, hc, hrange, he⟩ := hp
    obtain ⟨hu, rfl⟩ := mem_rowCells.1 hc
    obtain ⟨hu0, huW, hv0, hvH⟩ := hrange
    exact hcell u hv0 hvH (max_le hu.1 hu0) (lt_min hu.2 huW) he
  · next hp =>
    refine hother fun u hv0 hvH hlo hhi he => hp ⟨(u, y), mem_rowCells.2 ⟨by omega, rfl⟩, ?_, he⟩
    exact ⟨by omega, (lt_min_iff.1 hhi).2, hv0, hvH⟩

theorem painted_pvrun : Painted g 0 st (columnCells x y len) m (pvrun g st m x y len) := by
  intro p
  obtain ⟨hcell, hother⟩ := bitAt_pvrun (g := g) (st := st) (m := m) x y len p
  split
  · next hp =>
    obtain ⟨⟨u, v⟩, hc, hrange, he⟩ := hp
    obtain ⟨rfl, hv⟩ := mem_columnCells.1 hc
    obtain ⟨hu0, huW, hv0, hvH⟩ := hrange
    exact hcell v hu0 huW (max_le hv.1 hv0) (lt_min hv.2 hvH) he
  · next hp =>
    refine hother fun v hu0 huW hlo hhi he => hp ⟨(x, v), mem_columnCells.2 ⟨rfl, by omega⟩, ?_, he⟩
    exact ⟨hu0, huW, by omega, (lt_min_iff.1 hhi).2⟩

theorem painted_performRun (r : PhysicalRun) : Painted g 0 st r.cells m (performRun g st m r) := by
  cases r with
  | row px py len => exact painted_phrun
  | column px py len => exact painted_pvrun

/-- The call that HRUN is routed to covers exactly the images of the logical cells (R114). -/
theorem mem_cells_hRunRoute {c : Int × Int} :
    xform g rot c.1 c.2 ∈ (hRunRoute g rot x y len).cells ↔ c ∈ rowCells x y len := by
  rcases rot_cases rot with rfl | rfl | rfl | rfl <;>
    simp [PhysicalRun.cells, mem_rowCells, mem_columnCells, movedAnchor] <;> omega

/-- The call that VRUN is routed to covers exactly the images of the logical cells (R115). -/
theorem mem_cells_vRunRoute {c : Int × Int} :
    xform g rot c.1 c.2 ∈ (vRunRoute g rot x y len).cells ↔ c ∈ columnCells x y len := by
  rcases rot_cases rot with rfl | rfl | rfl | rfl <;>
    simp [PhysicalRun.cells, mem_rowCells, mem_columnCells, movedAnchor] <;> omega

/-- A primitive whose cells are the images of logical cells acts on the bits of these. -/
theorem painted_of_images {r : PhysicalRun} {cells : List (Int × Int)}
    (h : ∀ c : Int × Int, xform g rot c.1 c.2 ∈ r.cells ↔ c ∈ cells) :
    Painted g rot st cells m (performRun g st m r) := by
  intro p
  have hcovers : Covers g 0 r.cells p ↔ Covers g rot cells p := by
    constructor
    · rintro ⟨q, hq, hpanel, he⟩
      have hback := xform_xform_neg g rot q.1 q.2
      refine ⟨_, (h (xform (logicalGeometry g rot) (-rot) q.1 q.2)).1 (hback ▸ hq), ?_, ?_⟩
      · rw [inRange_iff_inPanel_xform, hback]
        exact hpanel
      · rw [logicalBit, hback]
        exact he
    · rintro ⟨c, hc, hrange, he⟩
      exact ⟨_, (h c).2 hc, inPanel_xform hrange, he⟩
  rw [painted_performRun r p]
  simp only [hcovers]

theorem painted_hRunLogical : Painted g rot st (rowCells x y len) m (hRunLogical g rot st m x y len) :=
  painted_of_images fun _ => mem_cells_hRunRoute

theorem painted_vRunLogical : Painted g rot st (columnCells x y len) m (vRunLogical g rot st m x y len) :=
  painted_of_images fun _ => mem_cells_vRunRoute

/-- HRUN replaces BUF alone (R116). -/
theorem exec_hrun (x y len : Int) (st : PixelState) (s : State) :
    exec (.hrun x y len st) s = .next { s with buf := hRunLogical s.geometry s.rot st s.buf x y len } := rfl

/-- VRUN replaces BUF alone (R117). -/
theorem exec_vrun (x y len : Int) (st : PixelState) (s : State) :
    exec (.vrun x y len st) s = .next { s with buf := vRunLogical s.geometry s.rot st s.buf x y len } := rfl

end Sys2Proof.Machine
end

section
/-! The run commands: what they equal, what they cover, and what they restore (spec/42_runs.md R110 to R120). -/

namespace Sys2Proof.Machine

/-- Settles O28: the three tables are closed terms. -/
theorem runMaskTables : Obligations.RunMaskTables := by
  unfold Obligations.RunMaskTables
  decide

/-- Settles O29: a column's byte bit by bit, by `bitAt_phrun`: the row's bit is a cell's, the other seven are not. -/
theorem physicalRowRunCoversColumns : Obligations.PhysicalRowRunCoversColumns := by
  refine fun g st m px py len => ⟨fun c hy0 hyH hlo hhi => ?_, fun i hi => ?_⟩
  · refine BitVec.eq_of_getLsbD_eq fun k _ => ?_
    obtain ⟨hcell, hother⟩ := bitAt_phrun (g := g) (st := st) (m := m) px py len ((bitAddr g (c, py)).1, k)
    rw [getLsbD_maskedByte, ← bitMask, getLsbD_bitMask (by omega)]
    simp only [decide_eq_true_eq]
    split
    · next hk => exact hcell c hy0 hyH hlo hhi (by rw [hk]; rfl)
    · next hk => exact hother fun _ _ _ _ _ he => hk (congrArg Prod.snd he)
  · refine read_eq_of_bitAt fun k => (bitAt_phrun px py len (i, k)).2 fun c hy0 hyH hlo hhi he => ?_
    exact hi c hy0 hyH hlo hhi (congrArg Prod.fst he)

/-- Settles O30, by `bitAt_pvrun`. -/
theorem physicalColumnRunCoversRows : Obligations.PhysicalColumnRunCoversRows :=
  fun _ _ _ px py len => ⟨fun r hx0 hxW hlo hhi => (bitAt_pvrun px py len _).1 r hx0 hxW hlo hhi rfl,
    fun p => (bitAt_pvrun px py len p).2⟩

/-- Settles O31: the run acts on the bits of its cells (`painted_hRunLogical`), which are all different. -/
theorem hrunEqualsPixels : Obligations.HrunEqualsPixels := fun x y len st s =>
  ⟨_, exec_hrun x y len st s, painted_hRunLogical.equals_setPixels nodup_rowCells (wf_hRunLogical · x y len)⟩

/-- Settles O32: the run acts on the bits of its cells (`painted_vRunLogical`), which are all different. -/
theorem vrunEqualsPixels : Obligations.VrunEqualsPixels := fun x y len st s =>
  ⟨_, exec_vrun x y len st s, painted_vRunLogical.equals_setPixels nodup_columnCells (wf_vRunLogical · x y len)⟩

/-- Settles O33: `painted_hRunLogical`, with the cells of the row spelled out. -/
theorem hrunCoversItsRow : Obligations.HrunCoversItsRow := by
  refine ⟨fun x y len st s => ⟨_, exec_hrun x y len st s, fun u hx hlen => ?_, fun p hp => ?_, fun i hi => ?_⟩,
    _, rfl, by decide⟩
  · exact painted_hRunLogical.bitAt_cell (c := (u, y)) (mem_rowCells.2 ⟨⟨hx, hlen⟩, rfl⟩)
  · exact painted_hRunLogical.bitAt_other (forall_rowCells.2 hp)
  · exact painted_hRunLogical.read_other (forall_rowCells.2 hi)

/-- Settles O34: `painted_vRunLogical`, with the cells of the column spelled out. -/
theorem vrunCoversItsColumn : Obligations.VrunCoversItsColumn := by
  refine ⟨fun x y len st s => ⟨_, exec_vrun x y len st s, fun v hy hlen => ?_, fun p hp => ?_, fun i hi => ?_⟩,
    _, rfl, by decide⟩
  · exact painted_vRunLogical.bitAt_cell (c := (x, v)) (mem_columnCells.2 ⟨rfl, hy, hlen⟩)
  · exact painted_vRunLogical.bitAt_other (forall_columnCells.2 hp)
  · exact painted_vRunLogical.read_other (forall_columnCells.2 hi)

/-- Settles O36: four runs on an empty buffer, whose results are closed terms. -/
theorem rotatedRunExamples : Obligations.RotatedRunExamples :=
  ⟨⟨_, rfl, by decide⟩, ⟨_, rfl, by decide⟩, ⟨_, rfl, by decide⟩, _, rfl, by decide⟩

/-- Settles O37: both runs invert the same cells (`Painted.invert_twice_restores`). -/
theorem runInvertTwiceRestores : Obligations.RunInvertTwiceRestores := fun x y len s =>
  ⟨⟨_, _, exec_hrun x y len .invert s, exec_hrun x y len .invert _,
      painted_hRunLogical.invert_twice_restores painted_hRunLogical
        fun hm => wf_hRunLogical (wf_hRunLogical hm x y len) x y len⟩,
    _, _, exec_vrun x y len .invert s, exec_vrun x y len .invert _,
    painted_vRunLogical.invert_twice_restores painted_vRunLogical
      fun hm => wf_vRunLogical (wf_vRunLogical hm x y len) x y len⟩

end Sys2Proof.Machine
end

section
/-! The bounds of a run's intermediate values (spec/42_runs.md R121; spec/43_line.md R130; spec/00_scope.md R7, R8). -/

namespace Sys2Proof.Machine

/-- A coordinate that a 16-bit operand carries (R7). -/
abbrev CoordFits (v : Int) : Prop := -32768 ≤ v ∧ v ≤ 32767

theorem fitsS16_iff {v : Int} : fitsS16 v = true ↔ CoordFits v := decide_eq_true_iff

/-- The logical anchor and length of a run that a command can ask for: those of two 16-bit operands, and those of a
LINE, whose length may be 65536 but whose last cell is an end point. -/
structure SpanFits (start len : Int) : Prop where
  anchor : CoordFits start
  lower : -65536 ≤ start + len
  upper : start + len ≤ 65534

theorem spanFits_of_operands {start len : Int} (hstart : CoordFits start) (hlen : CoordFits len) : SpanFits start len :=
  ⟨hstart, by omega, by omega⟩

/-- The span of an axis-aligned LINE between two end points (R130). -/
theorem spanFits_of_ends {a b : Int} (ha : CoordFits a) (hb : CoordFits b) :
    SpanFits (min a b) (absInt (b - a) + 1) := by
  have habs := absInt_eq (b - a)
  refine ⟨⟨by omega, by omega⟩, ?_, ?_⟩ <;> split at habs <;> omega

variable {g : Geometry} {rot : BitVec 2} {size start len x y : Int}

/-- What the clip leaves lies on the axis, so only the sum and the anchor are left to bound. -/
theorem axisFits_of_bounds (hsize : size ≤ 32767) (hsum : -65536 ≤ start + len ∧ start + len ≤ 65535)
    (hstart : -65533 ≤ start ∧ start ≤ 98303) : AxisFits size start len := by
  refine ⟨hsum, hstart, fun hleft => ?_⟩
  have hclip := clipRun_bounds hleft
  omega

theorem axisFits_of_span (hsize : size ≤ 32767) (h : SpanFits start len) : AxisFits size start len := by
  obtain ⟨hanchor, hlower, hupper⟩ := h
  exact axisFits_of_bounds hsize ⟨hlower, by omega⟩ ⟨by omega, by omega⟩

/-- A moved anchor plus the length is the image of the first cell, plus one. -/
theorem axisFits_movedAnchor (hsize : 1 ≤ size ∧ size ≤ 32767) (h : SpanFits start len) :
    AxisFits size (movedAnchor size start len) len := by
  obtain ⟨hanchor, hlower, hupper⟩ := h
  refine axisFits_of_bounds hsize.2 ?_ ?_ <;> unfold movedAnchor <;> omega

theorem runFits_hRunRoute (hg : g.Legal) (hx : SpanFits x len) (hy : CoordFits y) :
    RunFits g (hRunRoute g rot x y len) := by
  obtain ⟨hW, hH⟩ := hg
  rcases rot_cases rot with rfl | rfl | rfl | rfl
  · exact ⟨axisFits_of_span (by omega) hx, by omega⟩
  · exact ⟨axisFits_of_span (by omega) hx, by omega⟩
  · exact ⟨axisFits_movedAnchor (by omega) hx, by omega⟩
  · exact ⟨axisFits_movedAnchor (by omega) hx, by omega⟩

theorem runFits_vRunRoute (hg : g.Legal) (hx : CoordFits x) (hy : SpanFits y len) :
    RunFits g (vRunRoute g rot x y len) := by
  obtain ⟨hW, hH⟩ := hg
  rcases rot_cases rot with rfl | rfl | rfl | rfl
  · exact ⟨axisFits_of_span (by omega) hy, by omega⟩
  · exact ⟨axisFits_movedAnchor (by omega) hy, by omega⟩
  · exact ⟨axisFits_movedAnchor (by omega) hy, by omega⟩
  · exact ⟨axisFits_of_span (by omega) hy, by omega⟩

/-- The calls of a LINE that are routed: the one run of a vertical or a horizontal line (R130). -/
theorem routed_lineCalls_cases {x0 y0 x1 y1 : Int} {st : PixelState} {c : PrimitiveCall} {r : PhysicalRun}
    (hc : c ∈ lineCalls x0 y0 x1 y1 st) (hr : routedRun g rot c = some r) :
    c = .vrun x0 (min y0 y1) (absInt (y1 - y0) + 1) st ∨ c = .hrun (min x0 x1) y0 (absInt (x1 - x0) + 1) st := by
  unfold lineCalls at hc
  split at hc
  · exact .inl (List.mem_singleton.1 hc)
  · split at hc
    · exact .inr (List.mem_singleton.1 hc)
    · obtain ⟨k, -, rfl⟩ := (mem_lineLoop _).1 hc
      rw [routedRun_linePixel] at hr
      cases hr

/-- Settles O38: every routed call has its anchor and length within `SpanFits`, the operands' by `spanFits_of_operands`
and LINE's by `spanFits_of_ends`. -/
theorem runArithmeticIsBounded : Obligations.RunArithmeticIsBounded := by
  refine fun s hg => ⟨fun x y len st hwf => ⟨rfl, ?_⟩, fun x y len st hwf => ⟨rfl, ?_⟩,
    fun x0 y0 x1 y1 st hwf => ⟨rfl, fun c hc r hr => ?_⟩⟩
  · simp only [wellFormed, Bool.and_eq_true, fitsS16_iff] at hwf
    obtain ⟨⟨hx, hy⟩, hlen⟩ := hwf
    exact runFits_hRunRoute hg (spanFits_of_operands hx hlen) hy
  · simp only [wellFormed, Bool.and_eq_true, fitsS16_iff] at hwf
    obtain ⟨⟨hx, hy⟩, hlen⟩ := hwf
    exact runFits_vRunRoute hg hx (spanFits_of_operands hy hlen)
  · simp only [wellFormed, Bool.and_eq_true, fitsS16_iff] at hwf
    obtain ⟨⟨⟨hx0, hy0⟩, hx1⟩, hy1⟩ := hwf
    rcases routed_lineCalls_cases hc hr with rfl | rfl <;> cases hr
    · exact ⟨runFits_vRunRoute hg hx0 (spanFits_of_ends hy0 hy1), fun _ => rfl⟩
    · exact ⟨runFits_hRunRoute hg (spanFits_of_ends hx0 hx1) hy0, fun _ => rfl⟩

end Sys2Proof.Machine
end

section
/-! LINE's set-up, its error term between the iterations, and the cells of the closed form (spec/43_line.md R131, R135,
R138). -/

namespace Sys2Proof.Machine

/-- The logical pair (x, y) of a dominant and a secondary coordinate; a steep line's dominant axis is y (R131). -/
def axisPoint (steep : Bool) (dominant secondary : Int) : Int × Int :=
  if steep then (secondary, dominant) else (dominant, secondary)

@[simp] theorem axisPoint_true (a b : Int) : axisPoint true a b = (b, a) := rfl
@[simp] theorem axisPoint_false (a b : Int) : axisPoint false a b = (a, b) := rfl

theorem axisPoint_inj {steep : Bool} {a b a' b' : Int} :
    axisPoint steep a b = axisPoint steep a' b' ↔ a = a' ∧ b = b' := by
  cases steep <;> simp [and_comm]

/-- The call of SetPixelLogical at a cell (R97). -/
def pixelCall (st : PixelState) (c : Int × Int) : PrimitiveCall := .pixel c.1 c.2 st

theorem pixelCall_injective (st : PixelState) : Function.Injective (pixelCall st) := by
  rintro ⟨x, y⟩ ⟨x', y'⟩ h
  cases h
  rfl

theorem linePixel_eq_pixelCall (r : LineRegs) : linePixel r = pixelCall r.st (axisPoint r.steep r.xa r.ya) := by
  unfold linePixel axisPoint
  split <;> rfl

theorem lineCell_eq_axisPoint (r : LineRegs) (k : Nat) :
    lineCell r k = axisPoint r.steep (r.xa + k) (r.ya + r.ystep * lineOffset r.dx r.dy k) := rfl

@[simp] theorem absInt_zero : absInt 0 = 0 := rfl

theorem absInt_sub_comm (a b : Int) : absInt (a - b) = absInt (b - a) := by
  unfold absInt
  omega

/-- The secondary step taken once for each unit of the extent leads from one end to the other (R131). -/
theorem step_mul_absInt (a b : Int) : (if a < b then 1 else -1) * absInt (b - a) = b - a := by
  unfold absInt
  split <;> omega

section OrderedRegs

variable (steep : Bool) (x0 y0 x1 y1 : Int) (st : PixelState)

@[simp] theorem orderedRegs_steep : (orderedRegs steep x0 y0 x1 y1 st).steep = steep := by
  unfold orderedRegs; split <;> rfl

@[simp] theorem orderedRegs_xa : (orderedRegs steep x0 y0 x1 y1 st).xa = min x0 x1 := by
  unfold orderedRegs; split <;> simp only <;> omega

@[simp] theorem orderedRegs_dx : (orderedRegs steep x0 y0 x1 y1 st).dx = absInt (x1 - x0) := by
  unfold orderedRegs absInt; split <;> simp only <;> omega

@[simp] theorem orderedRegs_dy : (orderedRegs steep x0 y0 x1 y1 st).dy = absInt (y1 - y0) := by
  unfold orderedRegs; split
  · exact absInt_sub_comm y0 y1
  · rfl

/-- A line along the dominant axis starts at its one secondary coordinate. -/
@[simp] theorem orderedRegs_ya_self : (orderedRegs steep x0 y0 x1 y0 st).ya = y0 := by
  unfold orderedRegs; split <;> rfl

theorem orderedRegs_xe : (orderedRegs steep x0 y0 x1 y1 st).xe =
    (orderedRegs steep x0 y0 x1 y1 st).xa + (orderedRegs steep x0 y0 x1 y1 st).dx := by
  unfold orderedRegs; split <;> simp only <;> omega

/-- The loop goes from one end point to the other, `dy` secondary steps apart. -/
theorem orderedRegs_ends : let r := orderedRegs steep x0 y0 x1 y1 st
    (axisPoint steep r.xa r.ya = axisPoint steep x0 y0 ∧
        axisPoint steep (r.xa + r.dx) (r.ya + r.ystep * r.dy) = axisPoint steep x1 y1) ∨
      (axisPoint steep r.xa r.ya = axisPoint steep x1 y1 ∧
        axisPoint steep (r.xa + r.dx) (r.ya + r.ystep * r.dy) = axisPoint steep x0 y0) := by
  unfold orderedRegs
  split
  · exact .inr (by simp only [step_mul_absInt, add_sub_cancel, and_self])
  · exact .inl (by simp only [step_mul_absInt, add_sub_cancel, and_self])

/-- Two end points that differ on the dominant axis are brought to one order (R134). -/
theorem orderedRegs_swap {x0 x1 : Int} (h : x0 ≠ x1) :
    orderedRegs steep x0 y0 x1 y1 st = orderedRegs steep x1 y1 x0 y0 st := by
  unfold orderedRegs
  rcases lt_or_gt_of_ne h with hlt | hgt
  · rw [if_neg (Int.lt_asymm hlt), if_pos hlt]
  · rw [if_pos hgt, if_neg (Int.lt_asymm hgt)]

end OrderedRegs

section LineSetup

variable {x0 y0 x1 y1 : Int} {st : PixelState}

/-- A steep line's registers have the axes exchanged (R131). -/
theorem lineSetup_of_steep (h : absInt (x1 - x0) < absInt (y1 - y0)) :
    lineSetup x0 y0 x1 y1 st = orderedRegs true y0 x0 y1 x1 st := by
  rw [lineSetup, isSteep, decide_eq_true h, if_pos rfl]

theorem lineSetup_of_not_steep (h : absInt (y1 - y0) ≤ absInt (x1 - x0)) :
    lineSetup x0 y0 x1 y1 st = orderedRegs false x0 y0 x1 y1 st := by
  rw [lineSetup, isSteep, decide_eq_false (Int.not_lt.2 h), if_neg Bool.false_ne_true]

/-- The two shapes of the set-up (R131). -/
theorem lineSetup_cases (x0 y0 x1 y1 : Int) (st : PixelState) :
    lineSetup x0 y0 x1 y1 st = orderedRegs true y0 x0 y1 x1 st ∨
      lineSetup x0 y0 x1 y1 st = orderedRegs false x0 y0 x1 y1 st :=
  (lt_or_ge _ _).imp lineSetup_of_steep lineSetup_of_not_steep

theorem lineCount_lineSetup : lineCount (lineSetup x0 y0 x1 y1 st) = ((lineSetup x0 y0 x1 y1 st).dx + 1).toNat := by
  rcases lineSetup_cases x0 y0 x1 y1 st with hr | hr
  all_goals
    rw [hr, lineCount, orderedRegs_xe]
    omega

/-- The first and the last point of the loop are the end points, in one order or the other (R135). -/
theorem lineSetup_ends (x0 y0 x1 y1 : Int) (st : PixelState) : let r := lineSetup x0 y0 x1 y1 st
    (axisPoint r.steep r.xa r.ya = (x0, y0) ∧ axisPoint r.steep (r.xa + r.dx) (r.ya + r.ystep * r.dy) = (x1, y1)) ∨
      (axisPoint r.steep r.xa r.ya = (x1, y1) ∧
        axisPoint r.steep (r.xa + r.dx) (r.ya + r.ystep * r.dy) = (x0, y0)) := by
  simp only
  rcases lineSetup_cases x0 y0 x1 y1 st with hr | hr <;> rw [hr, orderedRegs_steep]
  · exact orderedRegs_ends true y0 x0 y1 x1 st
  · exact orderedRegs_ends false x0 y0 x1 y1 st

theorem lineSetup_swap (hx : x0 ≠ x1) (hy : y0 ≠ y1) : lineSetup x0 y0 x1 y1 st = lineSetup x1 y1 x0 y0 st := by
  rw [lineSetup, lineSetup, isSteep, isSteep, absInt_sub_comm x1, absInt_sub_comm y1, orderedRegs_swap _ _ _ _ hx,
    orderedRegs_swap _ _ _ _ hy]

end LineSetup

section ClosedForm

variable {r : LineRegs} {dx dy k q : Int}

/-- The closed form's offset is the number of add-backs that keeps the error term in `0 .. dx - 1` (R138). -/
theorem lineOffset_eq (hq : 0 ≤ q) (hlower : 0 ≤ dx / 2 - k * dy + q * dx) (hupper : dx / 2 - k * dy + q * dx < dx) :
    lineOffset dx dy k = q := by
  have hfloor : (dx / 2 - k * dy) / dx = -q := (Int.ediv_eq_iff_of_pos (by omega)).2 (by rw [Int.neg_mul]; omega)
  rw [lineOffset, hfloor, Int.neg_neg, Int.max_eq_right hq]

theorem lineOffset_start (hdx : 0 < dx) : lineOffset dx dy 0 = 0 :=
  lineOffset_eq Int.le_rfl (by omega) (by omega)

theorem lineOffset_end (hdx : 0 < dx) (hdy : 0 ≤ dy) : lineOffset dx dy dx = dy := by
  have hcomm := Int.mul_comm dx dy
  exact lineOffset_eq hdy (by omega) (by omega)

theorem lineOffset_zero_extent (hdx : 0 ≤ dx) : lineOffset dx 0 k = 0 := by
  have hfloor : 0 ≤ dx / 2 / dx := Int.ediv_nonneg (by omega) hdx
  rw [lineOffset, Int.mul_zero, Int.sub_zero]
  omega

/-- What the loop's step relies on: its extents, and the error term at the start (R131). -/
structure LoopReady (r : LineRegs) : Prop where
  dx_pos : 0 < r.dx
  dy_nonneg : 0 ≤ r.dy
  dy_le : r.dy ≤ r.dx
  err_eq : r.err = r.dx / 2

/-- After `k` iterations with `q` secondary steps: the error term has been decremented `k` times, `dx` added back `q`
times, and it lies in `0 .. dx - 1` (R135, R138). -/
structure LoopState (r : LineRegs) (k q : Int) (now : LineRegs) : Prop where
  steps_nonneg : 0 ≤ q
  ya_eq : now.ya = r.ya + r.ystep * q
  err_eq : now.err = r.dx / 2 - k * r.dy + q * r.dx
  err_nonneg : 0 ≤ now.err
  err_lt : now.err < r.dx

/-- One iteration takes a secondary step exactly when the decremented error term is negative. -/
theorem loopState_lineAdvance {now : LineRegs} (h : LoopReady r) (hnow : LoopState r k q now) (hdx : now.dx = r.dx)
    (hdy : now.dy = r.dy) (hystep : now.ystep = r.ystep) : ∃ q', LoopState r (k + 1) q' (lineAdvance now) := by
  obtain ⟨hdxpos, hdy0, hdyle, -⟩ := h
  obtain ⟨hq, hya, herr, hlower, hupper⟩ := hnow
  have hya' := lineAdvance_ya now
  have herr' := lineAdvance_err now
  by_cases hneg : now.err - now.dy < 0
  · rw [if_pos hneg] at hya' herr'
    refine ⟨q + 1, by omega, ?_, ?_, by omega, by omega⟩
    · rw [hya', hya, hystep]; ring
    · rw [herr', herr, hdx, hdy]; ring
  · rw [if_neg hneg] at hya' herr'
    refine ⟨q, hq, ?_, ?_, by omega, by omega⟩
    · rw [hya', hya]
    · rw [herr', herr, hdy]; ring

theorem exists_loopState (h : LoopReady r) (k : Nat) : ∃ q, LoopState r k q (lineRegsAfter k r) := by
  induction k with
  | zero =>
    obtain ⟨hdxpos, -, -, herr⟩ := h
    refine ⟨0, Int.le_rfl, ?_, ?_, ?_, ?_⟩ <;> simp only [lineRegsAfter] <;> omega
  | succ k ih =>
    obtain ⟨q, hq⟩ := ih
    rw [lineRegsAfter_succ]
    exact loopState_lineAdvance h hq (lineRegsAfter_dx r k) (lineRegsAfter_dy r k) (lineRegsAfter_ystep r k)

/-- The number of secondary steps is the closed form's offset. -/
theorem loopState_lineRegsAfter (h : LoopReady r) (k : Nat) :
    LoopState r k (lineOffset r.dx r.dy k) (lineRegsAfter k r) := by
  obtain ⟨q, hq⟩ := exists_loopState h k
  have hlower := hq.err_nonneg
  have hupper := hq.err_lt
  rw [hq.err_eq] at hlower hupper
  rwa [lineOffset_eq hq.steps_nonneg hlower hupper]

/-- The k-th pixel of the loop is the k-th cell of the closed form (R138). -/
theorem linePixel_lineRegsAfter (h : LoopReady r) (k : Nat) :
    linePixel (lineRegsAfter k r) = pixelCall r.st (lineCell r k) := by
  rw [linePixel_eq_pixelCall, lineCell_eq_axisPoint, (loopState_lineRegsAfter h k).ya_eq, lineRegsAfter_steep,
    lineRegsAfter_xa, lineRegsAfter_st]

theorem lineCell_start (h : LoopReady r) : lineCell r 0 = axisPoint r.steep r.xa r.ya := by
  rw [lineCell_eq_axisPoint, Int.natCast_zero, lineOffset_start h.dx_pos, Int.add_zero, Int.mul_zero, Int.add_zero]

theorem lineCell_end (h : LoopReady r) :
    lineCell r r.dx.toNat = axisPoint r.steep (r.xa + r.dx) (r.ya + r.ystep * r.dy) := by
  rw [lineCell_eq_axisPoint, Int.toNat_of_nonneg h.dx_pos.le, lineOffset_end h.dx_pos h.dy_nonneg]

/-- Up to the end of the loop there is at most one secondary step beyond the end point (R139). -/
theorem lineOffset_le (h : LoopReady r) {k : Nat} (hk : (k : Int) ≤ r.dx + 1) :
    lineOffset r.dx r.dy k ≤ r.dy + 1 := by
  obtain ⟨-, -, herr, -, hupper⟩ := loopState_lineRegsAfter h k
  have hloop : (k : Int) * r.dy ≤ (r.dx + 1) * r.dy := Int.mul_le_mul_of_nonneg_right hk h.dy_nonneg
  have hle := h.dy_le
  have hsteps : lineOffset r.dx r.dy k * r.dx < (r.dy + 2) * r.dx := by
    have hend : (r.dx + 1) * r.dy = r.dy * r.dx + r.dy := by ring
    have hnext : (r.dy + 2) * r.dx = r.dy * r.dx + 2 * r.dx := by ring
    have hdxpos := h.dx_pos
    omega
  have hlt := Int.lt_of_mul_lt_mul_right hsteps h.dx_pos.le
  omega

theorem lineCell_injective (r : LineRegs) : Function.Injective (lineCell r) := by
  intro k k' h
  rw [lineCell_eq_axisPoint, lineCell_eq_axisPoint, axisPoint_inj] at h
  omega

/-- The cells of the closed form for `k = 0 .. dx` (R138). -/
def lineCells (r : LineRegs) : List (Int × Int) := (List.range (r.dx + 1).toNat).map (lineCell r)

theorem nodup_lineCells (r : LineRegs) : (lineCells r).Nodup := List.nodup_range.map (lineCell_injective r)

/-- A statement about the cells of a line is one about `k = 0 .. dx`. -/
theorem forall_lineCells {P : Int × Int → Prop} :
    (∀ c ∈ lineCells r, P c) ↔ ∀ k : Nat, (k : Int) ≤ r.dx → P (lineCell r k) := by
  simp only [lineCells, List.forall_mem_map, List.mem_range, Int.lt_toNat, Int.lt_add_one_iff]

theorem getElem?_lineCells {k : Nat} (hk : (k : Int) ≤ r.dx) : (lineCells r)[k]? = some (lineCell r k) := by
  rw [lineCells, List.getElem?_map, List.getElem?_range (by omega), Option.map_some]

end ClosedForm

end Sys2Proof.Machine
end

section
/-! The calls of a LINE: their order, their number, their cells, and the registers' bounds (spec/43_line.md R130 to
R139). -/

namespace Sys2Proof.Machine

variable {x0 y0 x1 y1 : Int} {st : PixelState}

theorem loopReady_lineSetup (hx : x0 ≠ x1) (hy : y0 ≠ y1) : LoopReady (lineSetup x0 y0 x1 y1 st) := by
  obtain ⟨hdy, hle, -, herr, -⟩ := lineSetup_spec (st := st) hx hy
  exact ⟨by omega, by omega, hle, herr⟩

/-! The three branches of the dispatch (R130). -/

theorem lineCalls_vertical (x y0 y1 : Int) (st : PixelState) :
    lineCalls x y0 x y1 st = [.vrun x (min y0 y1) (absInt (y1 - y0) + 1) st] := if_pos rfl

theorem lineCalls_horizontal (hx : x0 ≠ x1) (y : Int) (st : PixelState) :
    lineCalls x0 y x1 y st = [.hrun (min x0 x1) y (absInt (x1 - x0) + 1) st] := by
  rw [lineCalls, if_neg hx, if_pos rfl]

theorem lineCalls_general (hx : x0 ≠ x1) (hy : y0 ≠ y1) :
    lineCalls x0 y0 x1 y1 st = lineGeneral x0 y0 x1 y1 st := by
  rw [lineCalls, if_neg hx, if_neg hy]

/-- The loop makes one pixel call for each cell of the closed form, in order (R138). -/
theorem lineGeneral_eq_pixelCalls (hx : x0 ≠ x1) (hy : y0 ≠ y1) :
    lineGeneral x0 y0 x1 y1 st = (lineCells (lineSetup x0 y0 x1 y1 st)).map (pixelCall st) := by
  obtain ⟨-, -, -, -, hst, -⟩ := lineSetup_spec (st := st) hx hy
  have hready := loopReady_lineSetup (st := st) hx hy
  refine List.ext_getElem? fun k => ?_
  rw [lineGeneral, lineCount_lineSetup, lineCells, List.map_map]
  by_cases hk : k < ((lineSetup x0 y0 x1 y1 st).dx + 1).toNat
  · rw [getElem?_lineLoop _ hk, linePixel_lineRegsAfter hready, hst, List.getElem?_map, List.getElem?_range hk]
    rfl
  · rw [List.getElem?_eq_none (by simpa using hk), List.getElem?_eq_none (by simpa using hk)]

theorem lineCalls_eq_pixelCalls (hx : x0 ≠ x1) (hy : y0 ≠ y1) :
    lineCalls x0 y0 x1 y1 st = (lineCells (lineSetup x0 y0 x1 y1 st)).map (pixelCall st) := by
  rw [lineCalls_general hx hy, lineGeneral_eq_pixelCalls hx hy]

theorem getElem?_lineCalls (hx : x0 ≠ x1) (hy : y0 ≠ y1) {k : Nat}
    (hk : (k : Int) ≤ (lineSetup x0 y0 x1 y1 st).dx) :
    (lineCalls x0 y0 x1 y1 st)[k]? = some (pixelCall st (lineCell (lineSetup x0 y0 x1 y1 st) k)) := by
  rw [lineCalls_eq_pixelCalls hx hy, List.getElem?_map, getElem?_lineCells hk, Option.map_some]

theorem length_lineCalls (hx : x0 ≠ x1) (hy : y0 ≠ y1) :
    (lineCalls x0 y0 x1 y1 st).length = ((lineSetup x0 y0 x1 y1 st).dx + 1).toNat := by
  rw [lineCalls_eq_pixelCalls hx hy, List.length_map, lineCells, List.length_map, List.length_range]

/-- Settles O45, by `getElem?_lineCalls`. -/
theorem lineClosedForm : Obligations.LineClosedForm := fun _ _ _ _ _ _ hx hy => getElem?_lineCalls hx hy

/-- Settles O41: `min` and `abs` are symmetric, and the general case brings both orders to the same registers
(`lineSetup_swap`). -/
theorem lineIsSymmetric : Obligations.LineIsSymmetric := by
  intro x0 y0 x1 y1 st
  by_cases hx : x0 = x1
  · subst hx
    rw [lineCalls_vertical, lineCalls_vertical, min_comm, absInt_sub_comm]
  · by_cases hy : y0 = y1
    · subst hy
      rw [lineCalls_horizontal hx, lineCalls_horizontal (Ne.symm hx), min_comm, absInt_sub_comm]
    · rw [lineCalls_general hx hy, lineCalls_general (Ne.symm hx) (Ne.symm hy), lineGeneral, lineGeneral,
        lineSetup_swap hx hy]

/-- Settles O42: the error term by the loop's state, the ends by the cells for `k = 0` and `k = dx`. -/
theorem lineErrorTermStaysInRange : Obligations.LineErrorTermStaysInRange := by
  intro x0 y0 x1 y1 st hx hy
  have hready := loopReady_lineSetup (st := st) hx hy
  have hdx := hready.dx_pos
  refine ⟨fun k _ => ?_, ?_⟩
  · obtain ⟨-, -, -, hlower, hupper⟩ := loopState_lineRegsAfter hready k
    exact ⟨hlower, by omega⟩
  · have hlast : (lineCalls x0 y0 x1 y1 st).length - 1 = (lineSetup x0 y0 x1 y1 st).dx.toNat := by
      rw [length_lineCalls hx hy]
      omega
    rw [List.head?_eq_getElem?, List.getLast?_eq_getElem?, hlast, getElem?_lineCalls hx hy (by omega),
      getElem?_lineCalls hx hy (by omega), lineCell_start hready, lineCell_end hready]
    rcases lineSetup_ends x0 y0 x1 y1 st with ⟨hfirst, hlast⟩ | ⟨hfirst, hlast⟩
    · exact .inl ⟨by rw [hfirst]; rfl, by rw [hlast]; rfl⟩
    · exact .inr ⟨by rw [hfirst]; rfl, by rw [hlast]; rfl⟩

/-- Settles O43: the number by `length_lineCalls`, the dominant coordinate by the closed form, where the set-up of a
steep line has the axes exchanged. -/
theorem lineCountsItsPixels : Obligations.LineCountsItsPixels := by
  refine ⟨fun x0 y0 x1 y1 st hx hy => ?_, fun x0 y0 x1 y1 st hx => ?_, fun x0 y0 x1 y1 st hx hy => ?_⟩
  · obtain ⟨hdy, hle, -, -, -, -, hmax⟩ := lineSetup_spec (st := st) hx hy
    have hcall : ∀ k : Nat, (k : Int) < max (absInt (x1 - x0)) (absInt (y1 - y0)) + 1 →
        (lineCalls x0 y0 x1 y1 st)[k]? = some (pixelCall st (lineCell (lineSetup x0 y0 x1 y1 st) k)) := fun k hk =>
      getElem?_lineCalls hx hy (by omega)
    refine ⟨by rw [length_lineCalls hx hy]; omega, fun hflat k hk => ?_, fun hsteep k hk => ?_⟩
    · rw [hcall k hk, lineSetup_of_not_steep hflat, lineCell_eq_axisPoint, orderedRegs_steep, orderedRegs_xa]
      exact ⟨_, rfl⟩
    · rw [hcall k hk, lineSetup_of_steep hsteep, lineCell_eq_axisPoint, orderedRegs_steep, orderedRegs_xa]
      exact ⟨_, rfl⟩
  · subst hx
    rw [lineCalls_vertical, Int.sub_self, absInt_zero, max_eq_right (absInt_nonneg _)]
  · subst hy
    rw [lineCalls_horizontal hx, Int.sub_self, absInt_zero, max_eq_left (absInt_nonneg _)]

/-- Settles O44: the cells of the closed form are all different (`nodup_lineCells`), and a run is one call. -/
theorem lineVisitsNoPixelTwice : Obligations.LineVisitsNoPixelTwice := by
  intro x0 y0 x1 y1 st
  by_cases hx : x0 = x1
  · subst hx
    rw [lineCalls_vertical]
    exact List.nodup_singleton _
  · by_cases hy : y0 = y1
    · subst hy
      rw [lineCalls_horizontal hx]
      exact List.nodup_singleton _
    · rw [lineCalls_eq_pixelCalls hx hy]
      exact (nodup_lineCells _).map (pixelCall_injective st)

theorem coordFits_of_axisPoint {steep : Bool} {a b x y : Int} (h : axisPoint steep a b = (x, y)) (hx : CoordFits x)
    (hy : CoordFits y) : CoordFits a ∧ CoordFits b := by
  cases steep <;> cases h
  · exact ⟨hx, hy⟩
  · exact ⟨hy, hx⟩

/-- The coordinates between which the loop runs are those of the end points, so 16-bit operands bound them (R139). -/
theorem coordFits_lineSetup (hx0 : CoordFits x0) (hy0 : CoordFits y0) (hx1 : CoordFits x1) (hy1 : CoordFits y1) :
    let r := lineSetup x0 y0 x1 y1 st
    (CoordFits r.xa ∧ CoordFits r.ya) ∧ CoordFits (r.xa + r.dx) ∧ CoordFits (r.ya + r.ystep * r.dy) := by
  rcases lineSetup_ends x0 y0 x1 y1 st with ⟨hfirst, hlast⟩ | ⟨hfirst, hlast⟩
  · exact ⟨coordFits_of_axisPoint hfirst hx0 hy0, coordFits_of_axisPoint hlast hx1 hy1⟩
  · exact ⟨coordFits_of_axisPoint hfirst hx1 hy1, coordFits_of_axisPoint hlast hx0 hy0⟩

/-- A secondary coordinate at most one step beyond the last is at most one unit out of the operands' range. -/
theorem secondary_bounds {ya ystep dy q : Int} (hystep : ystep = 1 ∨ ystep = -1) (hya : CoordFits ya)
    (hye : CoordFits (ya + ystep * dy)) (hq : 0 ≤ q) (hqle : q ≤ dy + 1) :
    -32769 ≤ ya + ystep * q ∧ ya + ystep * q ≤ 32768 := by
  rcases hystep with rfl | rfl <;> omega

/-- Settles O46: the dominant coordinate counts, the secondary one and the error term are those of the loop's state. -/
theorem lineRegistersAreBounded : Obligations.LineRegistersAreBounded := by
  intro x0 y0 x1 y1 st hwf hx hy
  dsimp only
  intro k hk
  simp only [wellFormed, Bool.and_eq_true, fitsS16_iff] at hwf
  obtain ⟨⟨⟨hx0, hy0⟩, hx1⟩, hy1⟩ := hwf
  obtain ⟨hdy, hle, -, -, -, hystep, -⟩ := lineSetup_spec (st := st) hx hy
  obtain ⟨⟨hxa, hya⟩, hxe, hye⟩ := coordFits_lineSetup (st := st) hx0 hy0 hx1 hy1
  have hready := loopReady_lineSetup (st := st) hx hy
  obtain ⟨hq, hyaq, -, hlower, hupper⟩ := loopState_lineRegsAfter hready k
  have hnow := secondary_bounds hystep hya hye hq (lineOffset_le hready hk)
  rw [← hyaq] at hnow
  simp only [lineRegsAfter_xa, lineRegsAfter_dx, lineRegsAfter_dy]
  refine ⟨?_, hnow, ?_, ?_, ?_, fun _ => ?_⟩ <;> omega

/-- Settles O48: the four lists of calls are closed terms. -/
theorem lineTraces : Obligations.LineTraces := by
  unfold Obligations.LineTraces
  decide

end Sys2Proof.Machine
end

section
/-! What LINE does to the buffer: the cells of the closed form in every case of its operands (spec/43_line.md R130,
R132, R138). -/

namespace Sys2Proof.Machine

variable {g : Geometry} {rot : BitVec 2} {st : PixelState} {m : Memory}

/-- LINE replaces BUF alone (R132). -/
theorem exec_line (x0 y0 x1 y1 : Int) (st : PixelState) (s : State) : exec (.line x0 y0 x1 y1 st) s =
    .next { s with buf := performCalls s.geometry s.rot (lineCalls x0 y0 x1 y1 st) s.buf } := rfl

/-- Settles O39: each branch of the dispatch, its one run call performed as the run command performs it. -/
theorem lineDispatches : Obligations.LineDispatches := by
  refine fun x0 y0 x1 y1 st s => ⟨fun hx => ?_, fun hx hy => ?_, fun hx hy => ?_⟩
  · subst hx
    rw [exec_line, lineCalls_vertical, exec_vrun]
    rfl
  · subst hy
    rw [exec_line, lineCalls_horizontal hx, exec_hrun]
    rfl
  · rw [exec_line, lineCalls_general hx hy]

theorem performCalls_pixelCalls (cells : List (Int × Int)) :
    performCalls g rot (cells.map (pixelCall st)) m = setPixels g rot st cells m := by
  induction cells generalizing m with
  | nil => rfl
  | cons c rest ih => exact ih

/-- Without a secondary extent the closed form runs straight along the dominant axis. -/
theorem lineCells_of_dy_eq_zero {r : LineRegs} (hdx : 0 ≤ r.dx) (hdy : r.dy = 0) :
    lineCells r = if r.steep then columnCells r.ya r.xa (r.dx + 1) else rowCells r.xa r.ya (r.dx + 1) := by
  have hcell : lineCell r = fun k : Nat => axisPoint r.steep (r.xa + k) r.ya := funext fun k => by
    rw [lineCell_eq_axisPoint, hdy, lineOffset_zero_extent hdx, Int.mul_zero, Int.add_zero]
  rw [lineCells, hcell]
  cases r.steep <;> rfl

/-- The closed form of a horizontal line or a single point is the row of R130. -/
theorem lineCells_horizontal (x0 x1 y : Int) :
    lineCells (lineSetup x0 y x1 y st) = rowCells (min x0 x1) y (absInt (x1 - x0) + 1) := by
  have hflat : absInt (y - y) ≤ absInt (x1 - x0) := by
    rw [Int.sub_self]
    exact absInt_nonneg _
  rw [lineSetup_of_not_steep hflat, lineCells_of_dy_eq_zero (by simp [absInt_nonneg]) (by simp)]
  simp

/-- The closed form of a vertical line is the column of R130; a single point is not steep. -/
theorem lineCells_vertical (x y0 y1 : Int) :
    lineCells (lineSetup x y0 x y1 st) = columnCells x (min y0 y1) (absInt (y1 - y0) + 1) := by
  by_cases hy : y0 = y1
  · subst hy
    rw [lineCells_horizontal]
    simp [rowCells, columnCells]
  · have hsteep : absInt (x - x) < absInt (y1 - y0) := by
      unfold absInt
      omega
    rw [lineSetup_of_steep hsteep, lineCells_of_dy_eq_zero (by simp [absInt_nonneg]) (by simp)]
    simp

/-- A line acts on the bits of its cells: by a run in the axis-aligned cases, pixel by pixel otherwise. -/
theorem painted_line (x0 y0 x1 y1 : Int) : Painted g rot st (lineCells (lineSetup x0 y0 x1 y1 st)) m
    (performCalls g rot (lineCalls x0 y0 x1 y1 st) m) := by
  by_cases hx : x0 = x1
  · subst hx
    rw [lineCalls_vertical, lineCells_vertical]
    exact painted_vRunLogical
  · by_cases hy : y0 = y1
    · subst hy
      rw [lineCalls_horizontal hx, lineCells_horizontal]
      exact painted_hRunLogical
    · rw [lineCalls_eq_pixelCalls hx hy, performCalls_pixelCalls]
      exact painted_setPixels (nodup_lineCells _)

/-- Settles O40: `painted_line`, with the cells of the line spelled out. -/
theorem lineDrawsItsCells : Obligations.LineDrawsItsCells := by
  refine ⟨fun x0 y0 x1 y1 st s => ⟨_, exec_line x0 y0 x1 y1 st s, ?_, fun p hp => ?_, fun i hi => ?_⟩,
    _, rfl, by decide⟩
  · exact forall_lineCells.1 fun c => (painted_line x0 y0 x1 y1).bitAt_cell
  · exact (painted_line x0 y0 x1 y1).bitAt_other (forall_lineCells.2 hp)
  · exact (painted_line x0 y0 x1 y1).read_other (forall_lineCells.2 hi)

/-- Settles O47: both lines invert the same cells (`Painted.invert_twice_restores`). -/
theorem lineInvertTwiceRestores : Obligations.LineInvertTwiceRestores := fun x0 y0 x1 y1 s =>
  ⟨_, _, exec_line x0 y0 x1 y1 .invert s, exec_line x0 y0 x1 y1 .invert _,
    (painted_line x0 y0 x1 y1).invert_twice_restores (painted_line x0 y0 x1 y1)
      fun hm => wf_performCalls _ (wf_performCalls _ hm)⟩

end Sys2Proof.Machine
end

section
/-! What the unit does in place of an exception: every step and every command completes, an illegal word sets ILL until
reset, and a run outside the logical rectangle does nothing (spec/60_exceptions.md R150, R151, R153). -/

namespace Sys2Proof.Machine

/-- An accepted word, legal or not, answers a next state (R150, R153). -/
theorem runWord_next (w : CommandWord) (s : State) : ∃ t, runWord w s = .next t :=
  ⟨_, runWord_withInputs w s s.inputs⟩

/-- Every step answers a next state, whichever of the four events it is about. -/
theorem step_next (s : State) : ∃ t, step s = .next t := by
  unfold step
  obtain ⟨e, s'⟩ := nextEvent s
  cases e with
  | resetAsserted => exact ⟨_, rfl⟩
  | fillCompletes => exact ⟨_, rfl⟩
  | accepted w => exact runWord_next w s'
  | idle => exact ⟨_, rfl⟩

/-- Settles O49: a step by `step_next`; a command by `exec_next`, which leaves BUSY and the inputs as they are. -/
theorem nothingEverStops : Obligations.NothingEverStops := by
  refine ⟨step_next, fun i s => ?_⟩
  obtain ⟨m, rot, rsp, he⟩ := exec_next i s
  exact ⟨_, he, rfl, rfl⟩

/-- An accepted word does not clear ILL: a command keeps it, an illegal word sets it (R153). -/
theorem runWord_keeps_ill {w : CommandWord} {s t : State} (hill : s.ill = true) (h : runWord w s = .next t) :
    t.ill = true := by
  rcases runWord_cases h with ⟨i, -, he⟩ | ⟨-, rfl⟩
  · obtain ⟨-, hkeep, -⟩ := exec_cases he
    exact hkeep.trans hill
  · exact flagIllegal_ill s

/-- A step that takes no reset pulse keeps ILL = 1 (R153). -/
theorem step_keeps_ill {s t : State} (hill : s.ill = true) (hrst : ∀ rest, s.inputs ≠ .rst :: rest)
    (h : step s = .next t) : t.ill = true := by
  rcases step_cases h with ⟨rest, hin, -⟩ | ⟨-, -, rfl⟩ | ⟨w, rest, -, -, hrun⟩ | ⟨-, -, rfl⟩
  case inl => exact absurd hin (hrst rest)
  case inr.inl => exact hill
  case inr.inr.inl => exact runWord_keeps_ill (s := { s with inputs := rest }) hill hrun
  case inr.inr.inr => exact hill

/-- A presented reset pulse is what the step takes, busy or not (R170, R171). -/
theorem step_rst {s : State} {rest : List HostInput} (hin : s.inputs = .rst :: rest) :
    step s = .next (enterReset { s with inputs := rest }) := by
  simp only [step, nextEvent, hin]

/-- Settles O9: the illegal word as in O8, the commands by `exec_cases`, the steps by `step_keeps_ill` and `step_rst`. -/
theorem illIsSticky : Obligations.IllIsSticky := by
  obtain ⟨-, -, -, hillegal⟩ := illegalWordsAreExactly
  refine ⟨hillegal, fun i s t h => ?_, fun s t => step_keeps_ill, fun s t rest hin h => ?_⟩
  · obtain ⟨-, hkeep, -⟩ := exec_cases h
    exact hkeep
  · cases (step_rst hin).symm.trans h
    exact enterReset_ill _

section Runs

variable {g : Geometry} {rot : BitVec 2} {st : PixelState} {m : Memory} {x y len : Int}

/-- PHRUN with no cell on the panel answers the buffer itself: where the clip leaves a cell, the first one is on the
panel (R110). -/
theorem phrun_off_panel (h : ∀ c ∈ rowCells x y len, ¬ InPanel g c) : phrun g st m x y len = m := by
  unfold phrun clipRun
  split
  · rfl
  · refine if_pos ?_
    by_contra hleft
    exact forall_rowCells.1 h (max x 0) (by omega) (by omega) ⟨by omega, by omega, by omega, by omega⟩

/-- PVRUN with no cell on the panel answers the buffer itself (R111). -/
theorem pvrun_off_panel (h : ∀ c ∈ columnCells x y len, ¬ InPanel g c) : pvrun g st m x y len = m := by
  unfold pvrun clipRun
  split
  · rfl
  · refine if_pos ?_
    by_contra hleft
    exact forall_columnCells.1 h (max y 0) (by omega) (by omega) ⟨by omega, by omega, by omega, by omega⟩

theorem performRun_off_panel {r : PhysicalRun} (h : ∀ c ∈ r.cells, ¬ InPanel g c) : performRun g st m r = m := by
  cases r with
  | row px py len => exact phrun_off_panel h
  | column px py len => exact pvrun_off_panel h

/-- A primitive whose cells are the images of logical cells, none of them in range, answers the buffer itself. -/
theorem performRun_of_images_outside {r : PhysicalRun} {cells : List (Int × Int)}
    (h : ∀ c : Int × Int, xform g rot c.1 c.2 ∈ r.cells ↔ c ∈ cells) (hout : ∀ c ∈ cells, ¬ InRange g rot c.1 c.2) :
    performRun g st m r = m := by
  refine performRun_off_panel fun q hq hpanel => ?_
  have hback := xform_xform_neg g rot q.1 q.2
  refine hout _ ((h (xform (logicalGeometry g rot) (-rot) q.1 q.2)).1 (hback ▸ hq)) ?_
  rw [inRange_iff_inPanel_xform, hback]
  exact hpanel

/-- HRUN with no cell in range does nothing (R151). -/
theorem exec_hrun_outside {s : State} (h : ∀ c ∈ rowCells x y len, ¬ InRange s.geometry s.rot c.1 c.2) :
    exec (.hrun x y len st) s = .next s := by
  rw [exec_hrun, hRunLogical, performRun_of_images_outside (fun _ => mem_cells_hRunRoute) h]

/-- VRUN with no cell in range does nothing (R151). -/
theorem exec_vrun_outside {s : State} (h : ∀ c ∈ columnCells x y len, ¬ InRange s.geometry s.rot c.1 c.2) :
    exec (.vrun x y len st) s = .next s := by
  rw [exec_vrun, vRunLogical, performRun_of_images_outside (fun _ => mem_cells_vRunRoute) h]

end Runs

/-- Settles O35: in each case the run has no cell in range (`exec_hrun_outside`, `exec_vrun_outside`). -/
theorem runsOutsideDoNothing : Obligations.RunsOutsideDoNothing := by
  refine ⟨fun x y len st s h => exec_hrun_outside (forall_rowCells.2 ?_),
    fun x y len st s h => exec_vrun_outside (forall_columnCells.2 ?_)⟩
  · rintro u hx hlen ⟨hu0, huW, hy0, hyH⟩
    omega
  · rintro v hy hlen ⟨hx0, hxW, hv0, hvH⟩
    omega

end Sys2Proof.Machine
end

section
/-! Reset, the software restart, and a unit that waits (spec/70_reset_and_hazards.md R170 to R175). -/

namespace Sys2Proof.Machine

variable {s : State}

/-- CLEAR's stores over the whole range of a canonical buffer leave the reset contents, as data and not only byte by
byte (R32, R80). -/
theorem clearBytes_eq_nil {m : Memory} {n : Nat} (hm : m.wf) (hlt : ∀ c ∈ m, c.1 < n) : clearBytes n 0 m = [] := by
  refine wf_ext (wf_clearBytes hm n 0) wf_nil fun i => ?_
  rw [read_clearBytes, read_nil]
  split
  · rfl
  · next hout =>
    by_contra hread
    have hi : i < n := hlt _ (mem_of_read hread)
    omega

/-- CLEAR under the invariant, which keeps every listed byte below N: the buffer is that of reset (R80, R174). -/
theorem exec_clear_of_inv (hs : Inv s) : exec .clear s = .next { s with buf := State.reset.buf } := by
  obtain ⟨-, hm, hin, -⟩ := hs
  rw [exec, execClear, clearBytes_eq_nil hm fun c hc => (hin c hc).1]
  rfl

/-- Settles O59: CLEAR leaves the reset buffer (`exec_clear_of_inv`), and SETROT 0 writes ROT alone. -/
theorem clearSetrotRestart : Obligations.ClearSetrotRestart := fun _ hs => ⟨_, exec_clear_of_inv hs, rfl⟩

/-- A busy unit runs the fill to its end, whatever word is presented, unless a reset pulse comes first (R170, R175). -/
theorem step_fill (hbusy : s.busy = true) (hrst : ∀ rest, s.inputs ≠ .rst :: rest) :
    step s = .next (completeFill s) := by
  obtain ⟨t, h⟩ := step_next s
  rcases step_cases h with ⟨rest, hin, -⟩ | ⟨-, -, rfl⟩ | ⟨w, rest, hready, -⟩ | ⟨hready, -⟩
  case inl => exact absurd hin (hrst rest)
  case inr.inl => exact h
  case inr.inr.inl => simp [hbusy] at hready
  case inr.inr.inr => simp [hbusy] at hready

/-- A ready unit to which nothing is presented stays as it is (R172). -/
theorem step_idle (hready : s.busy = false) (hin : s.inputs = []) : step s = .next s := by
  simp [step, nextEvent, hready, hin]

/-- Settles O2: the pulse by `step_rst`, the end of the fill by `step_fill`. -/
theorem resetPulseGivesResetState : Obligations.ResetPulseGivesResetState := fun _ _ hin =>
  ⟨_, step_rst hin, rfl, rfl, rfl, rfl, rfl, rfl, rfl, fun hrst => ⟨step_fill rfl hrst, rfl⟩⟩

/-- Settles O5: a ready unit by `step_idle`; a busy one by `step_fill`, which leaves the presented word where it is. -/
theorem unitWaitsAndWordIsHeld : Obligations.UnitWaitsAndWordIsHeld := by
  refine ⟨fun s => step_idle, fun s w rest hbusy hin => ⟨by simp [cmdReady, hbusy], completeFill s, ?_, ?_, rfl, rfl⟩⟩
  · exact step_fill hbusy (by simp [hin])
  · simp [cmdWord, hin]

end Sys2Proof.Machine
end
